-- ==== Sys2Proof/Word.lean ====
section
/-! DEFINITION. The bit-vector types the spec names (00_scope.md R10, 30_encoding.md R61, R66). All arithmetic on them
stands in Machine/Arith.lean. -/

namespace Sys2Proof

/-- `u64`: the width of `h1`, `h2`, `k1`, `k2`, `total_length` and of all arithmetic (R8 `ACC_BITS`, `LEN_BITS`). -/
abbrev Word := BitVec 64

/-- `u8`: one byte of the stream (R10, R11). -/
abbrev Byte := BitVec 8

/-- `u32`: the seed operand and register (R8 `SEED_BITS`). -/
abbrev Seed := BitVec 32

/-- The 128-bit payload of a command word (`data`, R61) or of a response word (`rdata`, R66). -/
abbrev Payload := BitVec 128

/-- A command word `CMD`, 136 bits (R61, R9 `CMD_BITS`). -/
abbrev Cmd := BitVec 136

/-- A response word `RSP`, 136 bits (R66, R9 `RSP_BITS`). -/
abbrev Rsp := BitVec 136

end Sys2Proof
end

