-- ==== Sys2Proof/Machine/Arith.lean ====
section
/-! DEFINITION. The arithmetic primitives of 00_scope.md R12 with the laws of 43_mix_functions.md R110 to R116: unsigned,
64 bits wide, wrapping, with logical shifts. -/

namespace Sys2Proof.Machine

/-- `add64(a, b) = (a + b) mod 2^64` (R111). -/
def add64 (a b : Word) : Word := a + b

/-- `mul64(a, b) = (a * b) mod 2^64` (R112). -/
def mul64 (a b : Word) : Word := a * b

/-- `xor64(a, b)` (R113). -/
def xor64 (a b : Word) : Word := a ^^^ b

/-- `shr64(a, r)`, the logical right shift (R114). -/
def shr64 (a : Word) (r : Nat) : Word := a >>> r

/-- `shl64(a, r) = (a * 2^r) mod 2^64` (R12). -/
def shl64 (a : Word) (r : Nat) : Word := a <<< r

/-- `rotl64(a, r) = shl64(a, r) | shr64(a, 64 - r)` for `r` from 1 to 63 (R115). -/
def rotl64 (a : Word) (r : Nat) : Word := shl64 a r ||| shr64 a (64 - r)

/-- `le64(s)`: byte `i` contributes `s[i] * 2^(8 i)`; bytes are unsigned, absent bytes are 0 (R116). -/
def le64 : List Byte → Word
  | [] => 0
  | b :: bs => add64 (b.setWidth 64) (shl64 (le64 bs) 8)

/-- `le64_bytes(w)`: element `i` is `w[8i+7:8i]`, eight elements (R116). -/
def le64Bytes (w : Word) : List Byte := (List.range 8).map fun i => w.extractLsb' (8 * i) 8

/-- `s[a..b)`: the elements with index `a` up to but not including `b` (R11). -/
def slice (s : List Byte) (a b : Nat) : List Byte := (s.drop a).take (b - a)

end Sys2Proof.Machine
end

