-- ==== Sys2Proof/Machine/Mix.lean ====
section
/-! DEFINITION. The `block_mixer_finalizer`: the constants of 00_scope.md R8 and the pure functions of
43_mix_functions.md R117 to R122. Each is total on its arguments; none touches the state. -/

namespace Sys2Proof.Machine

/-! ### Constants (R8); the names are the spec's -/

/-- First multiplicative constant of the K-mixes. -/
def C1 : Word := 0x87c37b91114253d5
/-- Second multiplicative constant of the K-mixes. -/
def C2 : Word := 0x4cf5ad432745937f
/-- Additive constant of the `h1` half of block mix, zero-extended to 64 bits. -/
def N1 : Word := 0x0000000052dce729
/-- Additive constant of the `h2` half of block mix, zero-extended to 64 bits. -/
def N2 : Word := 0x0000000038495ab5
/-- Multiplier of both halves of block mix. -/
def M5 : Word := 5
/-- Rotate amount inside `mixK1`. -/
def RK1 : Nat := 31
/-- Rotate amount inside `mixK2`. -/
def RK2 : Nat := 33
/-- Rotate amount of `h1` in block mix. -/
def RH1 : Nat := 27
/-- Rotate amount of `h2` in block mix. -/
def RH2 : Nat := 31
/-- First multiplier of `fmix64`. -/
def F1 : Word := 0xff51afd7ed558ccd
/-- Second multiplier of `fmix64`. -/
def F2 : Word := 0xc4ceb9fe1a85ec53
/-- Right-shift amount of `fmix64`, all three times. -/
def FS : Nat := 33

/-! ### K-mixes, block mix, tail mix, avalanche -/

/-- `mixK1` (R117). -/
def mixK1 (k : Word) : Word := mul64 (rotl64 (mul64 k C1) RK1) C2

/-- `mixK2` (R118). -/
def mixK2 (k : Word) : Word := mul64 (rotl64 (mul64 k C2) RK2) C1

/-- `BlockMix` (R119): the `h1` half uses the incoming `h2`, the `h2` half the new `h1`. -/
def blockMix (h : Word × Word) (k1 k2 : Word) : Word × Word :=
  let h1 := add64 (mul64 (add64 (rotl64 (xor64 h.1 (mixK1 k1)) RH1) h.2) M5) N1
  let h2 := add64 (mul64 (add64 (rotl64 (xor64 h.2 (mixK2 k2)) RH2) h1) M5) N2
  (h1, h2)

/-- `TailWords` (R120, 20_memory.md R44): `k1` from bytes 0 to 7, `k2` from bytes 8 on, absent bytes 0. -/
def tailWords (t : List Byte) : Word × Word := (le64 (t.take 8), le64 (t.drop 8))

/-- `TailMix` (R121): the K-mixes and XOR only, no rotate, add or multiply of block mix. -/
def tailMix (h : Word × Word) (t : List Byte) : Word × Word :=
  (xor64 h.1 (mixK1 (tailWords t).1), xor64 h.2 (mixK2 (tailWords t).2))

/-- One xor-shift of `fmix64`: `k ^ shr64(k, 33)` (R122). -/
def xorShift (k : Word) : Word := xor64 k (shr64 k FS)

/-- `fmix64` (R122). -/
def fmix64 (k : Word) : Word := xorShift (mul64 (xorShift (mul64 (xorShift k) F1)) F2)

end Sys2Proof.Machine
end

