-- ==== Sys2Proof/Config.lean ====
section
/-! DEFINITION. What 00_scope.md fixes for the machine: the sizes of R8 and the parameters of R9. The multipliers, addends
and rotate amounts of R8 stand beside the mix functions that use them (Machine/Mix.lean). The model has no free value:
the spec leaves no value of an executed command open (notes/assumptions/9.md). -/

namespace Sys2Proof.Config

/-- `BLOCK_BYTES`: the fixed unit of input the main mixing step works on (R8). -/
def blockBytes : Nat := 16

/-- `DIGEST_BYTES`: the length of what FINALIZE returns (R8, R107). -/
def digestBytes : Nat := 16

/-- `PEND_MAX`: the largest length of `pending` (R8). -/
def pendMax : Nat := 15

/-- `BEAT_BYTES`: the most bytes one UPDATE command carries (R9, 92_eei_decisions.md D5). -/
def beatBytes : Nat := 16

/-- `SEED_DEFAULT`: the seed held after hardware reset (R9, 92_eei_decisions.md D10). -/
def seedDefault : Seed := 0

/-- The two readings of the seed's widening that 90_conflicts.md C1 weighs. -/
inductive SeedExt where
  /-- Zero-extension, the reading C1 chooses. -/
  | zero
  /-- Sign-extension, the losing text of C1; kept because R9 makes the reading a parameter. -/
  | sign
  deriving DecidableEq, Repr

/-- `SEED_EXT`: the value this hardware takes is zero-extension (R9, R24, 90_conflicts.md C1). -/
def seedExt : SeedExt := .zero

end Sys2Proof.Config
end

