-- ==== Sys2Proof/Syntax.lean ====
section
/-! DEFINITION. The instructions: one constructor for each mnemonic of spec/opcode_table.json. The table's two UPDATE rows
are one constructor and its four ILLEGAL.update_len rows are one (30_encoding.md, opening: "0 to 16" is not one match-and-mask
pattern; notes/assumptions/2.md). An ignored field (R68) is no operand. -/

namespace Sys2Proof

/-- The commands of 30_encoding.md R62 and the illegal words of R69. -/
inductive Instr where
  /-- NEW, `op` = 1; the operand is `data[31:0]` (R65, R80). -/
  | new (seed : Seed)
  /-- RESET, `op` = 2 (R81). -/
  | reset
  /-- UPDATE, `op` = 3, `len` 0 to 16; the operand is the bytes of lanes 0 to `len - 1`, first byte first (R64, R90). -/
  | update (bytes : List Byte)
  /-- FINALIZE, `op` = 4 (R100). -/
  | finalize
  /-- DIGEST_LENGTH, `op` = 5 (R82). -/
  | digestLength
  /-- The illegal words with the reserved `op` = 0 (R69). -/
  | illegalOp0
  /-- The illegal words with the reserved `op` = 6 (R69). -/
  | illegalOp6
  /-- The illegal words with the reserved `op` = 7 (R69). -/
  | illegalOp7
  /-- The illegal words with `op` = 3 and `len` 17 to 31 (R69). -/
  | illegalUpdateLen (len : BitVec 5)
  deriving DecidableEq, Repr

/-- Whether the instruction stands for an illegal word (R69). -/
def Instr.isIllegal : Instr → Bool
  | .new _ => false
  | .reset => false
  | .update _ => false
  | .finalize => false
  | .digestLength => false
  | .illegalOp0 => true
  | .illegalOp6 => true
  | .illegalOp7 => true
  | .illegalUpdateLen _ => true

/-- Why a byte sequence in the serial form of R72 gives no command word. -/
inductive DecodeError where
  /-- Fewer than the 17 bytes of one word; safe: no instruction is made up. -/
  | tooShort (available : Nat)
  deriving DecidableEq, Repr

end Sys2Proof
end

