-- ==== Sys2Proof/WellFormed.lean ====
section
/-! DEFINITION. Which terms of Instr stand for a command word (30_encoding.md R63, R69). -/

namespace Sys2Proof

/-- An UPDATE carries 0 to 16 bytes, an illegal UPDATE has `len` 17 to 31 (R63, R69); the other operands are exact. -/
def Instr.wellFormed : Instr → Bool
  | .new _ => true
  | .reset => true
  | .update bytes => bytes.length ≤ Config.beatBytes
  | .finalize => true
  | .digestLength => true
  | .illegalOp0 => true
  | .illegalOp6 => true
  | .illegalOp7 => true
  | .illegalUpdateLen len => 17 ≤ len.toNat

end Sys2Proof
end

