-- ==== Sys2Proof/Decode.lean ====
section
/-! DEFINITION. The command word's fields, the decoder of R71 (total), the encoder of the canonical word (R68, R73), and
the 17-byte serial form of R72. -/

namespace Sys2Proof

/-! ### Fields of the command word (R61) -/

/-- `op = cmd[2:0]`. -/
def cmdOp (w : Cmd) : BitVec 3 := w.extractLsb' 0 3

/-- `len = cmd[7:3]`, an unsigned count, neither scaled nor biased (R63). -/
def cmdLen (w : Cmd) : BitVec 5 := w.extractLsb' 3 5

/-- `data = cmd[135:8]`. -/
def cmdData (w : Cmd) : Payload := w.extractLsb' 8 128

/-- Byte lane `i` of a payload, `data[8i+7:8i]` (R46, R64). -/
def laneByte (data : Payload) (i : Nat) : Byte := data.extractLsb' (8 * i) 8

/-- The byte sequence of an UPDATE: lanes 0 to `n - 1`, lane 0 first (R64). -/
def beatBytesOf (n : Nat) (data : Payload) : List Byte := (List.range n).map (laneByte data)

/-- The seed operand of NEW, `data[31:0]` (R65). -/
def seedOperand (data : Payload) : Seed := data.extractLsb' 0 32

/-! ### The decoder (R71) -/

/-- R71, case by case; total, and an illegal word is an instruction of its own (R69). -/
def decode (w : Cmd) : Instr :=
  match (cmdOp w).toNat with
  | 0 => .illegalOp0
  | 1 => .new (seedOperand (cmdData w))
  | 2 => .reset
  | 3 =>
    if (cmdLen w).toNat ≤ Config.beatBytes then .update (beatBytesOf (cmdLen w).toNat (cmdData w))
    else .illegalUpdateLen (cmdLen w)
  | 4 => .finalize
  | 5 => .digestLength
  | 6 => .illegalOp6
  | _ => .illegalOp7

/-! ### The encoder: the canonical word, every ignored bit 0 (R68, R73) -/

/-- The payload whose lane `i` is byte `i` of the list and whose other lanes are 0 (R46, R64). -/
def packBytes : List Byte → Payload
  | [] => 0
  | b :: bs => b.setWidth 128 ||| (packBytes bs <<< 8)

/-- The `op` value of R62. -/
def opOf : Instr → BitVec 3
  | .new _ => 1
  | .reset => 2
  | .update _ => 3
  | .finalize => 4
  | .digestLength => 5
  | .illegalOp0 => 0
  | .illegalOp6 => 6
  | .illegalOp7 => 7
  | .illegalUpdateLen _ => 3

/-- The canonical `len` field (R63, R68). -/
def lenOf : Instr → BitVec 5
  | .update bytes => BitVec.ofNat 5 bytes.length
  | .illegalUpdateLen len => len
  | .new _ => 0
  | .reset => 0
  | .finalize => 0
  | .digestLength => 0
  | .illegalOp0 => 0
  | .illegalOp6 => 0
  | .illegalOp7 => 0

/-- The canonical `data` field (R64, R65, R68). -/
def dataOf : Instr → Payload
  | .new seed => seed.setWidth 128
  | .update bytes => packBytes bytes
  | .reset => 0
  | .finalize => 0
  | .digestLength => 0
  | .illegalOp0 => 0
  | .illegalOp6 => 0
  | .illegalOp7 => 0
  | .illegalUpdateLen _ => 0

/-- A command word from its three fields (R61): `data ‖ len ‖ op`. -/
def packCmd (op : BitVec 3) (len : BitVec 5) (data : Payload) : Cmd := data ++ len ++ op

/-- The canonical word of an instruction (R73; for an illegal one the word of its row with every other bit 0). -/
def encode (i : Instr) : Cmd := packCmd (opOf i) (lenOf i) (dataOf i)

/-! ### The serial form (R72): 17 bytes, lowest bits first -/

/-- The 17 bytes of a 136-bit word: byte `i` is `word[8i+7:8i]`. -/
def serialOf (w : BitVec 136) : List Byte := (List.range 17).map fun i => w.extractLsb' (8 * i) 8

/-- The 136-bit word whose low bytes are the list, lowest first; bytes after the 17th are not looked at. -/
def wordOfBytes : Nat → List Byte → BitVec 136
  | 0, _ => 0
  | _, [] => 0
  | n + 1, b :: bs => b.setWidth 136 ||| (wordOfBytes n bs <<< 8)

/-- Decoding from the serial form: one word of 17 bytes, and the bytes after it; a shorter sequence is rejected by name. -/
def decodeBytes (bytes : List Byte) : Except DecodeError (Instr × List Byte) :=
  if 17 ≤ bytes.length then .ok (decode (wordOfBytes 17 bytes), bytes.drop 17)
  else .error (.tooShort bytes.length)

/-- The command word the table's numbering gives: bit 0 of `w` is `cmd[0]`, the bits above `nbits` are 0. -/
def tableCmd (nbits w : Nat) : Cmd := BitVec.ofNat 136 (w % 2 ^ nbits)

/-- The instruction the decoder reads from a word numbered as spec/opcode_table.json numbers it: the word is laid out in
the serial form of R72 and given to `decodeBytes`. -/
def decodeTableWord (nbits w : Nat) : Option Instr :=
  match decodeBytes (serialOf (tableCmd nbits w)) with
  | .ok (i, _) => some i
  | .error _ => none

end Sys2Proof
end

