-- ==== Sys2Proof/Machine/State.lean ====
section
/-! DEFINITION. The machine's state: the six architectural items of 10_state.md R20, and the three items of its surroundings
that a step needs (the host's command list and its position in it, R30; the responses given, R60). -/

namespace Sys2Proof.Machine

/-- The architectural state of one engine, "exactly the six items below and nothing else" (R20). -/
structure DigestState where
  /-- `h1`, the first accumulator word (R21). -/
  h1 : Word
  /-- `h2`, the second accumulator word (R21). -/
  h2 : Word
  /-- `total_length`, the count of bytes passed to UPDATE since the last reset, modulo 2^64 (R22). -/
  totalLength : Word
  /-- `pending`, the unprocessed tail, oldest byte first (R23); that it is shorter than 16 is an invariant (R26). -/
  pending : List Byte
  /-- `seed`, the value the accumulators are initialised from (R24). -/
  seed : Seed
  /-- `fcause`, the fault latch: 0 NONE, 1 INVARIANT, 2 ILLEGAL (R25). -/
  fcause : BitVec 2
  deriving DecidableEq, Repr

/-- What the host can put on the engine's input ports (R60): a command word on `cmd`, or hardware reset on `rst`
between two commands (R150, R165). -/
inductive Input where
  /-- One command word (R61). -/
  | cmd (w : Cmd)
  /-- Hardware reset (R150). -/
  | rst
  deriving DecidableEq, Repr

/-- The engine and the host side of its ports. -/
structure State extends DigestState where
  /-- What the host has still to issue, in its order (R30, R52). The engine never writes it. -/
  inputs : List Input
  /-- How many command words have been issued: the position of R30 that "plays the part of a program counter". -/
  position : Nat
  /-- Every response word given so far on `rsp`, oldest first (R60). No command reads it (R29). -/
  responses : List Rsp
  deriving DecidableEq, Repr

/-- The architectural state after hardware reset: the `rst` column of R34. -/
def DigestState.reset : DigestState where
  h1 := 0
  h2 := 0
  totalLength := 0
  pending := []
  seed := Config.seedDefault
  fcause := 0

/-- The machine right after reset: R34, with the host's list not yet given, its position 0 (R30) and no response yet. -/
def State.reset : State where
  toDigestState := DigestState.reset
  inputs := []
  position := 0
  responses := []

/-- The two causes of R130. Raising one is a next state (fault entry, R133), not a stop of the model. -/
inductive FaultCause where
  /-- `InvariantViolation`: FINALIZE finds 16 or more bytes pending (R131). -/
  | invariantViolation
  /-- `IllegalCommand`: an illegal command word (R132). -/
  | illegalCommand
  deriving DecidableEq, Repr

/-- Why the model stops with a fault: never. R13: "every command word either executes or latches a fault; nothing is
stuck"; both faults of R130 are states the machine goes on from, so nobody raises a stop and the type has no
constructor (safe: a stop that cannot happen proves nothing false). -/
inductive Fault where
  deriving DecidableEq, Repr

/-- Why the model refuses an instruction. -/
inductive Refusal where
  /-- Raised only by an arm of `exec` for an instruction with no meaning yet; no arm raises it now. Safe: a refusal
  proves nothing of the hardware. -/
  | notModelled (mnemonic : String)
  deriving DecidableEq, Repr

/-- The outcome of a command or of a step. -/
abbrev Result := Host.Outcome State Fault Refusal

end Sys2Proof.Machine
end

