-- ==== Sys2Proof/Machine/Operands.lean ====
section
/-! DEFINITION. Operand and result forms: the widening of the seed (10_state.md R24) and the response word
(30_encoding.md R66). The fields of the command word are taken apart in Decode.lean. -/

namespace Sys2Proof.Machine

/-- The widening of a 32-bit seed under one reading of 90_conflicts.md C1. -/
def widenSeedAs : Config.SeedExt → Seed → Word
  | .zero, s => s.setWidth 64
  | .sign, s => s.signExtend 64

/-- `zext_64(seed)`: the value NEW, RESET and FINALIZE put into both accumulators (R24, R9 `SEED_EXT`). -/
def widenSeed (s : Seed) : Word := widenSeedAs Config.seedExt s

/-- The response word (R66): `status` in bits 7:0, `rdata` in bits 135:8. -/
def packRsp (status : BitVec 8) (rdata : Payload) : Rsp := rdata ++ status

/-- `rsp[7:0]` (R66). -/
def rspStatus (r : Rsp) : BitVec 8 := r.extractLsb' 0 8

/-- `rsp[135:8]` (R66). -/
def rspData (r : Rsp) : Payload := r.extractLsb' 8 128

/-- `rdata` of a pair of words, `H2 ‖ H1` (R46, R67). -/
def wordsData (h : Word × Word) : Payload := h.2 ++ h.1

end Sys2Proof.Machine
end

