-- ==== Sys2Proof/Machine/Flags.lean ====
section
/-! DEFINITION. The engine has no arithmetic flags (10_state.md R31). What is flag-like: the fault latch `fcause` (R25), the
status byte made from it (30_encoding.md R66), and FINALIZE's two tests on `len(pending)` (R31, R131). UPDATE's test
`len(pending) + n >= 16` (R31) is the block count of R91, in Machine/Update.lean. -/

namespace Sys2Proof.Machine

/-- The code a fault leaves in `fcause` (R25, R130). -/
def causeCode : FaultCause → BitVec 2
  | .invariantViolation => 1
  | .illegalCommand => 2

/-- The engine is faulted: `fcause` is not 0 (R25). -/
def DigestState.faulted (d : DigestState) : Bool := d.fcause != 0

/-- The `status` byte: `fcause` zero-extended to 8 bits (R66). -/
def DigestState.status (d : DigestState) : BitVec 8 := d.fcause.setWidth 8

/-- `len(pending) >= 1`, read by FINALIZE to decide tail mix (R31, R100 step 1). -/
def DigestState.hasTail (d : DigestState) : Bool := 1 ≤ d.pending.length

/-- `len(pending) >= 16`, which FINALIZE must never find (R131). -/
def DigestState.tailBroken (d : DigestState) : Bool := Config.blockBytes ≤ d.pending.length

end Sys2Proof.Machine
end

