-- ==== Sys2Proof/Machine/Ops.lean ====
section
/-! DEFINITION. The named operations every command is written over: the reset of the data state, fault entry
(60_exceptions.md R133; there is no return from a fault, R135), the check that comes first (R134), the response, and
what taking one input from the host does (10_state.md R30). The engine has no memory (20_memory.md R40). -/

namespace Sys2Proof.Machine

/-- The four assignments that NEW, RESET and FINALIZE share (R81, R80, R100 step 7): the data state of the empty stream
under the stored seed. -/
def DigestState.clearStream (d : DigestState) : DigestState :=
  { d with h1 := widenSeed d.seed, h2 := widenSeed d.seed, totalLength := 0, pending := [] }

/-- `seed <- s` (R80). -/
def DigestState.storeSeed (d : DigestState) (s : Seed) : DigestState := { d with seed := s }

/-- `fcause <- c` (R133). -/
def DigestState.latch (d : DigestState) (c : FaultCause) : DigestState := { d with fcause := causeCode c }

/-- The machine with another architectural state, its surroundings unchanged. -/
def State.withDigest (s : State) (d : DigestState) : State := { s with toDigestState := d }

/-- `respond(status, rdata)`: one response word, its status the value of `fcause` at the end of the command (R60, R66). -/
def State.respond (s : State) (rdata : Payload) : State :=
  { s with responses := s.responses ++ [packRsp s.toDigestState.status rdata] }

/-- A command that executed: the new architectural state, and the response `(OK, rdata)`. -/
def State.complete (s : State) (d : DigestState) (rdata : Payload) : Result := .next ((s.withDigest d).respond rdata)

/-- Fault entry (R133): only `fcause` changes, the response is the fault status with `rdata` 0. -/
def State.raise (s : State) (c : FaultCause) : Result := .next ((s.withDigest (s.toDigestState.latch c)).respond 0)

/-- The check that comes first (R134): a faulted engine answers its fault status and does nothing else; an unfaulted one
goes on as given. -/
def State.unlessFaulted (s : State) (o : Result) : Result :=
  if s.toDigestState.faulted then .next (s.respond 0) else o

/-- The host's next command word is accepted: the position advances by exactly 1 (R30). -/
def State.acceptCmd (s : State) (rest : List Input) : State := { s with inputs := rest, position := s.position + 1 }

/-- Hardware reset (R150): every architectural item takes its value of R34; no response is given and the host's position
does not move (R30). -/
def State.hardwareReset (s : State) (rest : List Input) : State :=
  { s with toDigestState := DigestState.reset, inputs := rest }

/-- The next input becomes `w`, before what the host had still to issue. -/
def State.pushCmd (s : State) (w : Cmd) : State := { s with inputs := .cmd w :: s.inputs }

end Sys2Proof.Machine
end

