-- ==== Sys2Proof/Machine/Finalize.lean ====
section
/-! DEFINITION. FINALIZE (42_finalize.md R100), its steps in the source's order. -/

namespace Sys2Proof.Machine

/-- Step 1: tail mix, only when bytes are pending. -/
def DigestState.tailStep (d : DigestState) : Word × Word :=
  if d.hasTail then tailMix (d.h1, d.h2) d.pending else (d.h1, d.h2)

/-- Step 2: the length is XORed into both halves. -/
def lengthStep (h : Word × Word) (n : Word) : Word × Word := (xor64 h.1 n, xor64 h.2 n)

/-- Steps 3 and 5: the cross addition; the second sum uses the first's result. -/
def crossAdd (h : Word × Word) : Word × Word :=
  let a := add64 h.1 h.2
  (a, add64 h.2 a)

/-- Step 4: the avalanche finalizer on each half. -/
def avalanche (h : Word × Word) : Word × Word := (fmix64 h.1, fmix64 h.2)

/-- Steps 1 to 5: the final words `(H1, H2)`, a pure function of the state before the command (R100 corner case 6). -/
def DigestState.digestWords (d : DigestState) : Word × Word :=
  crossAdd (avalanche (crossAdd (lengthStep d.tailStep d.totalLength)))

/-- Step 6: the 16 digest bytes, `h1` first, each word little-endian (20_memory.md R45). -/
def serialise (h : Word × Word) : List Byte := le64Bytes h.1 ++ le64Bytes h.2

/-- FINALIZE (R100): the check of R131, the digest, then the implicit reset of step 7. -/
def execFinalize (s : State) : Result :=
  s.unlessFaulted
    (if s.toDigestState.tailBroken then s.raise .invariantViolation
     else s.complete s.toDigestState.clearStream (wordsData s.toDigestState.digestWords))

end Sys2Proof.Machine
end

