-- ==== Sys2Proof/Machine/Illegal.lean ====
section
/-! DEFINITION. The illegal words (30_encoding.md R69): each performs fault entry with `IllegalCommand` and nothing else,
"whatever its other fields hold" (60_exceptions.md R132). -/

namespace Sys2Proof.Machine

/-- ILLEGAL.op0 (R69, R132). -/
def execIllegalOp0 (s : State) : Result := s.unlessFaulted (s.raise .illegalCommand)

/-- ILLEGAL.op6 (R69, R132). -/
def execIllegalOp6 (s : State) : Result := s.unlessFaulted (s.raise .illegalCommand)

/-- ILLEGAL.op7 (R69, R132). -/
def execIllegalOp7 (s : State) : Result := s.unlessFaulted (s.raise .illegalCommand)

/-- ILLEGAL.update_len (R69, R132): UPDATE with `len` 17 to 31; no byte is absorbed, and the length is not kept (R130). -/
def execIllegalUpdateLen (_len : BitVec 5) (s : State) : Result := s.unlessFaulted (s.raise .illegalCommand)

end Sys2Proof.Machine
end

