-- ==== Sys2Proof/Machine/Lifecycle.lean ====
section
/-! DEFINITION. The lifecycle commands NEW, RESET and DIGEST_LENGTH (40_lifecycle.md). -/

namespace Sys2Proof.Machine

/-- NEW (R80): store the seed, then the reset of the data state; `fcause` is not changed. -/
def execNew (seed : Seed) (s : State) : Result :=
  s.unlessFaulted (s.complete (s.toDigestState.storeSeed seed).clearStream 0)

/-- RESET (R81). -/
def execReset (s : State) : Result :=
  s.unlessFaulted (s.complete s.toDigestState.clearStream 0)

/-- DIGEST_LENGTH (R82): the state is unchanged, `rdata` is `DIGEST_BYTES`. -/
def execDigestLength (s : State) : Result :=
  s.unlessFaulted (s.complete s.toDigestState (BitVec.ofNat 128 Config.digestBytes))

end Sys2Proof.Machine
end

