-- ==== Sys2Proof/Machine/Update.lean ====
section
/-! DEFINITION. UPDATE and the `streaming_buffer_reconciler` (41_update.md). -/

namespace Sys2Proof.Machine

/-- The block loop of R91: `q` passes, each mixing the first 16 bytes of the buffer; what is left is returned with the
accumulators. -/
def absorbBlocks : Nat → Word × Word → List Byte → (Word × Word) × List Byte
  | 0, h, buf => (h, buf)
  | q + 1, h, buf => absorbBlocks q (blockMix h (le64 (slice buf 0 8)) (le64 (slice buf 8 16))) (buf.drop Config.blockBytes)

/-- `update(b)` for a byte sequence of any length (R91), of which one UPDATE command is the case of 0 to 16 bytes (R90,
R96; notes/assumptions/4.md). -/
def DigestState.absorb (d : DigestState) (b : List Byte) : DigestState :=
  let buf := d.pending ++ b
  let r := absorbBlocks (buf.length / Config.blockBytes) (d.h1, d.h2) buf
  { d with h1 := r.1.1, h2 := r.1.2, pending := r.2, totalLength := add64 d.totalLength (BitVec.ofNat 64 b.length) }

/-- UPDATE (R90). -/
def execUpdate (bytes : List Byte) (s : State) : Result :=
  s.unlessFaulted (s.complete (s.toDigestState.absorb bytes) 0)

end Sys2Proof.Machine
end

