-- ==== Sys2Proof/Machine/Dispatch.lean ====
section
/-! DEFINITION. One arm for each instruction (30_encoding.md R62, R69). -/

namespace Sys2Proof.Machine

/-- What one decoded command does to the machine (60_exceptions.md R134). -/
def exec (i : Instr) (s : State) : Host.Outcome State Fault Refusal :=
  match i with
  | .new seed => Sys2Proof.Machine.execNew seed s
  | .reset => Sys2Proof.Machine.execReset s
  | .update bytes => Sys2Proof.Machine.execUpdate bytes s
  | .finalize => Sys2Proof.Machine.execFinalize s
  | .digestLength => Sys2Proof.Machine.execDigestLength s
  | .illegalOp0 => Sys2Proof.Machine.execIllegalOp0 s
  | .illegalOp6 => Sys2Proof.Machine.execIllegalOp6 s
  | .illegalOp7 => Sys2Proof.Machine.execIllegalOp7 s
  | .illegalUpdateLen len => Sys2Proof.Machine.execIllegalUpdateLen len s

end Sys2Proof.Machine
end

