-- ==== Sys2Proof/Machine/Step.lean ====
section
/-! DEFINITION. One step: the engine takes the host's next input (30_encoding.md R60, 10_state.md R30). -/

namespace Sys2Proof.Machine

/-- A command word is accepted, decoded and executed (R134); `rst` resets the engine (R150); with nothing to execute the
engine "simply holds its state" (60_exceptions.md R145). -/
def step (s : State) : Host.Outcome State Fault Refusal :=
  match s.inputs with
  | [] => .next s
  | .rst :: rest => .next (s.hardwareReset rest)
  | .cmd w :: rest => exec (decode w) (s.acceptCmd rest)

/-- The word, numbered as the opcode table numbers it, as the next command the host issues. -/
def State.withFetchWord (s : State) (nbits w : Nat) : State := s.pushCmd (tableCmd nbits w)

end Sys2Proof.Machine
end

