-- ==== Sys2Proof/Machine/Exact.lean ====
section
/-! DEFINITION. The mix functions of 43_mix_functions.md R117, R118, R119 and R122 over natural numbers, every word operation
written as the arithmetic its rule names (sum, product, quotient, remainder modulo 2^64) and every constant written out:
what the bit-vector functions of Machine/Mix.lean are compared against. -/

namespace Sys2Proof.Machine

/-- R115 as arithmetic: `shl64(a, r) | shr64(a, 64 - r)`, the two parts having no bit in common. -/
def rotExact (a r : Nat) : Nat := a * 2 ^ r % 2 ^ 64 + a / 2 ^ (64 - r)

/-- R117. -/
def mixK1Exact (k : Nat) : Nat := rotExact (k * 0x87c37b91114253d5 % 2 ^ 64) 31 * 0x4cf5ad432745937f % 2 ^ 64

/-- R118. -/
def mixK2Exact (k : Nat) : Nat := rotExact (k * 0x4cf5ad432745937f % 2 ^ 64) 33 * 0x87c37b91114253d5 % 2 ^ 64

/-- R119, the `h1` half. -/
def blockMixExact1 (h1 h2 k1 : Nat) : Nat :=
  ((rotExact (h1 ^^^ mixK1Exact k1) 27 + h2) % 2 ^ 64 * 5 + 0x52dce729) % 2 ^ 64

/-- R119, the `h2` half, from the `h1` just computed. -/
def blockMixExact2 (newH1 h2 k2 : Nat) : Nat :=
  ((rotExact (h2 ^^^ mixK2Exact k2) 31 + newH1) % 2 ^ 64 * 5 + 0x38495ab5) % 2 ^ 64

/-- One `k ^ (k >>> 33)` of R122. -/
def xorShiftExact (k : Nat) : Nat := k ^^^ k / 2 ^ 33

/-- R122. -/
def fmix64Exact (k : Nat) : Nat :=
  xorShiftExact (xorShiftExact (xorShiftExact k * 0xff51afd7ed558ccd % 2 ^ 64) * 0xc4ceb9fe1a85ec53 % 2 ^ 64)

end Sys2Proof.Machine
end

