-- ==== Sys2Proof/Machine/Pseudo.lean ====
section
/-! DEFINITION. The pseudo-instructions of 30_encoding.md R74, and a list of commands as what the host issues. -/

namespace Sys2Proof.Machine

/-- `NEW` with no operand: `NEW 0` (R74). -/
def newDefault : Instr := .new Config.seedDefault

/-- `UPDATEN <bytes>`: `ceil(n / 16)` UPDATE commands carrying the bytes in order, 16 each but possibly the last (R74). -/
def updateN (bytes : List Byte) : List Instr :=
  (List.range ((bytes.length + 15) / 16)).map fun j => .update (slice bytes (16 * j) (16 * j + 16))

/-- `HASH <seed>, <bytes>`: `NEW <seed>`, `UPDATEN <bytes>`, `FINALIZE` (R74). -/
def hashOf (seed : Seed) (bytes : List Byte) : List Instr := .new seed :: (updateN bytes ++ [.finalize])

/-- The host issues the canonical words of a list of commands, in order (R30, R68). -/
def inputsOf (is : List Instr) : List Input := is.map fun i => .cmd (encode i)

/-- Commands executed one after the other, each on the state its predecessor left (20_memory.md R52). -/
def execAll : List Instr → State → Result
  | [], s => .next s
  | i :: is, s =>
    match exec i s with
    | .next t => execAll is t
    | .fault r => .fault r
    | .refused r => .refused r

/-- The architectural state a list of commands leaves. -/
def digestAfter (is : List Instr) (s : State) : Option DigestState :=
  match execAll is s with
  | .next t => some t.toDigestState
  | .fault _ => none
  | .refused _ => none

end Sys2Proof.Machine
end

