-- ==== Sys2Proof/Machine/Stream.lean ====
section
/-! DEFINITION. The state and the digest as functions of the seed and the stream (10_state.md R28, 42_finalize.md R101),
written from those rules and not from the commands: what a run of commands is compared against. -/

namespace Sys2Proof.Machine

/-- `Fold(j)` of R28: the accumulators after the first `j` blocks of the stream `S`. -/
def foldBlocks (seed : Seed) (S : List Byte) : Nat → Word × Word
  | 0 => (seed.setWidth 64, seed.setWidth 64)
  | j + 1 =>
    blockMix (foldBlocks seed S j) (le64 (slice S (16 * j) (16 * j + 8))) (le64 (slice S (16 * j + 8) (16 * j + 16)))

/-- The unfaulted state after the stream `S` under `seed` (R28). -/
def streamState (seed : Seed) (S : List Byte) : DigestState where
  h1 := (foldBlocks seed S (S.length / 16)).1
  h2 := (foldBlocks seed S (S.length / 16)).2
  totalLength := BitVec.ofNat 64 S.length
  pending := slice S (16 * (S.length / 16)) S.length
  seed := seed
  fcause := 0

/-- The words `(H1, H2)` of `Digest(seed, S)` (R101), statement by statement. -/
def digestOf (seed : Seed) (S : List Byte) : Word × Word :=
  let q := S.length / 16
  let T := slice S (16 * q) S.length
  let a := (foldBlocks seed S q).1
  let b := (foldBlocks seed S q).2
  let a := if 1 ≤ T.length then a ^^^ mixK1 (tailWords T).1 else a
  let b := if 1 ≤ T.length then b ^^^ mixK2 (tailWords T).2 else b
  let a := a ^^^ BitVec.ofNat 64 S.length
  let b := b ^^^ BitVec.ofNat 64 S.length
  let a := a + b
  let b := b + a
  let a := fmix64 a
  let b := fmix64 b
  let a := a + b
  let b := b + a
  (a, b)

/-- `Digest(seed, S)`, the 16 bytes (R101). -/
def digestBytesOf (seed : Seed) (S : List Byte) : List Byte :=
  le64Bytes (digestOf seed S).1 ++ le64Bytes (digestOf seed S).2

/-- What a command does to the pair of the seed and the stream since the last reset (R26 item 2, R28). -/
def streamAfter : Instr → Seed × List Byte → Seed × List Byte
  | .new s, _ => (s, [])
  | .reset, (s, _) => (s, [])
  | .update b, (s, S) => (s, S ++ b)
  | .finalize, (s, _) => (s, [])
  | .digestLength, (s, S) => (s, S)
  | .illegalOp0, (s, S) => (s, S)
  | .illegalOp6, (s, S) => (s, S)
  | .illegalOp7, (s, S) => (s, S)
  | .illegalUpdateLen _, (s, S) => (s, S)

/-- The same for one input of the host: a command word, or hardware reset, which leaves the empty stream under the
default seed (R150). -/
def streamAfterInput (p : Seed × List Byte) : Input → Seed × List Byte
  | .cmd w => streamAfter (decode w) p
  | .rst => (Config.seedDefault, [])

end Sys2Proof.Machine
end

