-- ==== Sys2Proof/Safety.lean ====
section
/-! DEFINITION. What holds between commands in every reachable state (10_state.md R26, R27), in the terms the statements
use. -/

namespace Sys2Proof.Machine

/-- Items 1 of R26 and R27 with the value set of R25: `pending` is shorter than a block and as long as the low four bits
of `total_length` say, and `fcause` is none of the codes no rule writes. -/
abbrev DigestState.Inv (d : DigestState) : Prop :=
  d.pending.length < 16 ∧ d.pending.length = d.totalLength.toNat % 16 ∧ d.fcause ≠ 3

/-- A response word R66 and R67 allow: `status` 0, 1 or 2, and `rdata` 0 unless `status` is 0. -/
abbrev rspLegal (r : Rsp) : Prop :=
  (rspStatus r = 0 ∨ rspStatus r = 1 ∨ rspStatus r = 2) ∧ (rspStatus r ≠ 0 → rspData r = 0)

/-- The machine's invariant: the engine's own, one response for each command issued (R60), each of them legal. -/
abbrev State.Inv (s : State) : Prop :=
  s.toDigestState.Inv ∧ s.responses.length = s.position ∧ ∀ r ∈ s.responses, rspLegal r

end Sys2Proof.Machine
end

