-- ==== Sys2Proof/Certificates/Slice0/Obligations.lean ====
section
/-! DEFINITION. The statements for the provers, from the numbered rules of spec/, in the order of its files' subjects:
encoding, arithmetic and mix functions, the commands, UPDATE's laws, the stream and the digest, faults, the machine. -/

open Sys2Proof Sys2Proof.Machine

/-! ### Encoding (30_encoding.md) -/

/-- Words written out from the tables of R62 and of 95_test_vectors.md section 2.10 decode to what they stand for. -/
def Obligations.WordsOfTheSpecDecode : Prop :=
  decode 0x01 = .new 0 ∧ decode 0xfffffffffffffffffffffffff00000005f9 = .new 5 ∧ decode 0x02 = .reset ∧
    decode 0x03 = .update [] ∧ decode 0x6c6c656823 = .update [0x68, 0x65, 0x6c, 0x6c] ∧
    decode 0xeeeeeeeeeeeeeeeeeeeeeeeeeeee696813 = .update [0x68, 0x69] ∧ decode 0x4c = .finalize ∧
    decode 0x05 = .digestLength ∧ decode 0 = .illegalOp0 ∧ decode 0xfe = .illegalOp6 ∧ decode 0xff = .illegalOp7 ∧
    decode 0x8b = .illegalUpdateLen 17 ∧ decode 0xfb = .illegalUpdateLen 31

/-- R71: the decoder is this procedure, field by field of the word; it is total. -/
def Obligations.DecodeFollowsTheProcedure : Prop :=
  ∀ w : Cmd,
    (w.extractLsb' 0 3 = 1 → decode w = .new (w.extractLsb' 8 32)) ∧
    (w.extractLsb' 0 3 = 2 → decode w = .reset) ∧
    (w.extractLsb' 0 3 = 3 → (w.extractLsb' 3 5).toNat ≤ 16 →
      ∃ b, decode w = .update b ∧ b.length = (w.extractLsb' 3 5).toNat ∧
        ∀ i < b.length, b[i]? = some (w.extractLsb' (8 * i + 8) 8)) ∧
    (w.extractLsb' 0 3 = 3 → 16 < (w.extractLsb' 3 5).toNat → decode w = .illegalUpdateLen (w.extractLsb' 3 5)) ∧
    (w.extractLsb' 0 3 = 4 → decode w = .finalize) ∧
    (w.extractLsb' 0 3 = 5 → decode w = .digestLength) ∧
    (w.extractLsb' 0 3 = 0 → decode w = .illegalOp0) ∧
    (w.extractLsb' 0 3 = 6 → decode w = .illegalOp6) ∧
    (w.extractLsb' 0 3 = 7 → decode w = .illegalOp7)

/-- Decode and encode agree on every well-formed instruction, every operand at every value. -/
def Obligations.DecodeOfEncodeIsTheInstruction : Prop :=
  ∀ i : Instr, i.wellFormed = true → decode (encode i) = i

/-- What the decoder gives is well formed: UPDATE with at most 16 bytes, an illegal UPDATE with `len` at least 17. -/
def Obligations.DecodedInstructionIsWellFormed : Prop :=
  ∀ w : Cmd, (decode w).wellFormed = true

/-- R73: the word emitted for each command, as a number: `header = len * 8 + op`, the operand from bit 8 on, all else 0. -/
def Obligations.CanonicalWordsAsNumbers : Prop :=
  (∀ x : Seed, (encode (.new x)).toNat = 1 + 2 ^ 8 * x.toNat) ∧
    (encode .reset).toNat = 2 ∧ (encode .finalize).toNat = 4 ∧ (encode .digestLength).toNat = 5 ∧
    ∀ b : List Byte, b.length ≤ 16 →
      (encode (.update b)).toNat =
        3 + 8 * b.length + 2 ^ 8 * ((List.range b.length).map fun i => (b.getD i 0).toNat * 2 ^ (8 * i)).sum

/-- R69: which words are illegal; executing one raises IllegalCommand; the count by header byte. -/
def Obligations.IllegalWordsExactly : Prop :=
  (∀ w : Cmd, (decode w).isIllegal = true ↔
      (w.extractLsb' 0 3 = 0 ∨ w.extractLsb' 0 3 = 6 ∨ w.extractLsb' 0 3 = 7 ∨
        (w.extractLsb' 0 3 = 3 ∧ 17 ≤ (w.extractLsb' 3 5).toNat ∧ (w.extractLsb' 3 5).toNat ≤ 31))) ∧
    (∀ (s : State) (w : Cmd) (rest : List Input), s.fcause = 0 → s.inputs = .cmd w :: rest →
      (decode w).isIllegal = true →
      step s = .next { s with fcause := 2, inputs := rest, position := s.position + 1,
                              responses := s.responses ++ [packRsp 2 0] }) ∧
    ((List.range 256).filter fun h => (decode (BitVec.ofNat 136 h)).isIllegal).length = 111 ∧
    ((List.range 256).filter fun h => !(decode (BitVec.ofNat 136 h)).isIllegal).length = 145

/-- R68: any value in an ignored field gives the same state and the same response; the canonical word has it 0. -/
def Obligations.IgnoredFieldsAreIgnored : Prop :=
  (∀ (s : State) (w w' : Cmd) (rest : List Input),
    w.extractLsb' 0 3 = w'.extractLsb' 0 3 →
    (w.extractLsb' 0 3 = 1 → w.extractLsb' 8 32 = w'.extractLsb' 8 32) →
    (w.extractLsb' 0 3 = 3 → w.extractLsb' 3 5 = w'.extractLsb' 3 5 ∧
      ∀ i < (w.extractLsb' 3 5).toNat, w.extractLsb' (8 * i + 8) 8 = w'.extractLsb' (8 * i + 8) 8) →
    step { s with inputs := .cmd w :: rest } = step { s with inputs := .cmd w' :: rest }) ∧
  (∀ i ∈ [Instr.reset, .finalize, .digestLength], (encode i).extractLsb' 3 133 = 0) ∧
  (∀ x : Seed, (encode (.new x)).extractLsb' 3 5 = 0 ∧ (encode (.new x)).extractLsb' 40 96 = 0) ∧
  ∀ b : List Byte, ∀ i < 16, b.length ≤ i → (encode (.update b)).extractLsb' (8 * i + 8) 8 = 0

/-- R72: the 17 bytes of a word, lowest bits first; together they are the word. -/
def Obligations.SerialFormOfAWord : Prop :=
  ∀ w : Cmd, (serialOf w).length = 17 ∧ (serialOf w)[0]? = some (w.extractLsb' 0 8) ∧
    (∀ i < 16, (serialOf w)[1 + i]? = some (w.extractLsb' (8 * i + 8) 8)) ∧
    wordOfBytes 17 (serialOf w) = w

/-- Decoding a byte sequence takes one word off it and leaves the rest; fewer than 17 bytes are rejected by name. -/
def Obligations.ByteDecodingTakesOneWord : Prop :=
  (∀ (w : Cmd) (rest : List Byte), decodeBytes (serialOf w ++ rest) = .ok (decode w, rest)) ∧
    ∀ bytes : List Byte, bytes.length < 17 → decodeBytes bytes = .error (.tooShort bytes.length)

/-- R66: the response word's two fields, and the status it carries. -/
def Obligations.ResponseCarriesTheLatch : Prop :=
  (∀ (st : BitVec 8) (x : Payload), (packRsp st x).extractLsb' 0 8 = st ∧ (packRsp st x).extractLsb' 8 128 = x) ∧
    ∀ (s : State) (w : Cmd) (rest : List Input), s.inputs = .cmd w :: rest → s.fcause ≠ 3 →
      ∃ t r, step s = .next t ∧ t.responses = s.responses ++ [r] ∧ rspStatus r = t.fcause.setWidth 8 ∧
        (rspStatus r = 0 ∨ rspStatus r = 1 ∨ rspStatus r = 2) ∧
        (rspStatus r ≠ 0 → rspData r = 0 ∧ t.seed = s.seed ∧ t.h1 = s.h1 ∧ t.h2 = s.h2 ∧
          t.totalLength = s.totalLength ∧ t.pending = s.pending)

/-- R74: `UPDATEN` is `ceil(n / 16)` UPDATE commands that carry the bytes in order, 16 each but possibly the last. -/
def Obligations.UpdateNCarriesTheBytes : Prop :=
  ∀ bytes : List Byte, ∃ chunks : List (List Byte), updateN bytes = chunks.map .update ∧ chunks.flatten = bytes ∧
    chunks.length = (bytes.length + 15) / 16 ∧ (∀ c ∈ chunks, 1 ≤ c.length ∧ c.length ≤ 16) ∧
    ∀ c ∈ chunks.dropLast, c.length = 16

/-! ### Arithmetic and mix functions (43_mix_functions.md) -/

/-- R111, R112, R114: sums and products modulo 2^64, the right shift a quotient; the laws and the forms the rules name. -/
def Obligations.WordArithmeticWraps : Prop :=
  (∀ a b : Word, (add64 a b).toNat = (a.toNat + b.toNat) % 2 ^ 64 ∧ add64 a b = add64 b a) ∧
    (∀ a b c : Word, add64 (add64 a b) c = add64 a (add64 b c)) ∧
    (∀ a b : Word, (mul64 a b).toNat = a.toNat * b.toNat % 2 ^ 64) ∧
    (∀ h c : Word, add64 (mul64 h 5) c = add64 (add64 (shl64 h 2) h) c) ∧
    (mul64 0xffffffffffffffff C1).toNat = 2 ^ 64 - C1.toNat ∧
    C1.toNat % 2 = 1 ∧ C2.toNat % 2 = 1 ∧ F1.toNat % 2 = 1 ∧ F2.toNat % 2 = 1 ∧ M5.toNat % 2 = 1 ∧
    ∀ (a : Word) (r : Nat), r < 64 → (shr64 a r).toNat = a.toNat / 2 ^ r

/-- R115: bit `i` becomes bit `(i + r) mod 64`, for every amount from 1 to 63. -/
def Obligations.RotateMovesEveryBit : Prop :=
  ∀ (a : Word) (r : Nat), 1 ≤ r → r ≤ 63 →
    rotl64 a r = shl64 a r ||| shr64 a (64 - r) ∧
      ∀ i < 64, (rotl64 a r).getLsbD ((i + r) % 64) = a.getLsbD i

/-- R116: `le64` is the little-endian sum, `le64_bytes` gives the eight bytes, and they are inverse on length 8. -/
def Obligations.LittleEndianWords : Prop :=
  (∀ s : List Byte, s.length ≤ 8 →
      (le64 s).toNat = ((List.range s.length).map fun i => (s.getD i 0).toNat * 2 ^ (8 * i)).sum) ∧
    le64 [] = 0 ∧
    (∀ w : Word, (le64Bytes w).length = 8 ∧ le64 (le64Bytes w) = w ∧
      ∀ i < 8, (le64Bytes w)[i]? = some (w.extractLsb' (8 * i) 8)) ∧
    ∀ s : List Byte, s.length = 8 → le64Bytes (le64 s) = s

/-- R117, R118: the K-mixes over exact integers. -/
def Obligations.KMixesExact : Prop :=
  (∀ k : Word, (mixK1 k).toNat = mixK1Exact k.toNat) ∧ ∀ k : Word, (mixK2 k).toNat = mixK2Exact k.toNat

/-- R119: block mix over exact integers; the `h1` half uses the incoming `h2`, the `h2` half the new `h1`. -/
def Obligations.BlockMixExact : Prop :=
  ∀ h1 h2 k1 k2 : Word,
    (blockMix (h1, h2) k1 k2).1.toNat = blockMixExact1 h1.toNat h2.toNat k1.toNat ∧
      (blockMix (h1, h2) k1 k2).2.toNat =
        blockMixExact2 (blockMix (h1, h2) k1 k2).1.toNat h2.toNat k2.toNat

/-- R120: the progressive OR into shifted positions, for tails of 1 to 15 bytes. -/
def Obligations.TailWordsByShiftedOr : Prop :=
  ∀ t : List Byte, 1 ≤ t.length → t.length ≤ 15 →
    (tailWords t).1 =
        (List.range (min t.length 8)).foldl (fun k i => k ||| shl64 ((t.getD i 0).setWidth 64) (8 * i)) 0 ∧
      (tailWords t).2 =
        (List.range (t.length - 8)).foldl (fun k i => k ||| shl64 ((t.getD (8 + i) 0).setWidth 64) (8 * i)) 0

/-- R121: the tail words through the K-mixes and XOR; a tail of at most 8 bytes leaves `h2`, a tail of zero bytes both. -/
def Obligations.TailMixIsKMixAndXor : Prop :=
  ∀ (h1 h2 : Word) (t : List Byte), 1 ≤ t.length → t.length ≤ 15 →
    tailMix (h1, h2) t = (h1 ^^^ mixK1 (le64 (slice t 0 8)), h2 ^^^ mixK2 (le64 (slice t 8 t.length))) ∧
      (t.length ≤ 8 → (tailMix (h1, h2) t).2 = h2) ∧
      ((∀ x ∈ t, x = 0) → tailMix (h1, h2) t = (h1, h2))

/-- R122: the avalanche finalizer over exact integers. -/
def Obligations.AvalancheExact : Prop :=
  ∀ k : Word, (fmix64 k).toNat = fmix64Exact k.toNat

/-- R123: zero is a fixed point of the three mixers, with the consequences the rule names. -/
def Obligations.MixersFixZero : Prop :=
  mixK1 0 = 0 ∧ mixK2 0 = 0 ∧ fmix64 0 = 0 ∧ (∀ h : Word × Word, tailMix h [] = h) ∧
    digestOf 0 [] = (0, 0) ∧ blockMix (0, 0) 0 0 ≠ (0, 0)

/-! ### Data views (10_state.md, 20_memory.md) -/

/-- R24, R9: the seed is zero-extended into both accumulators; for a seed below 2^31 the other reading agrees, for any
other it differs in bits 63:32. -/
def Obligations.SeedIsZeroExtended : Prop :=
  (∀ x : Seed, widenSeed x = x.setWidth 64 ∧ (widenSeed x).extractLsb' 32 32 = 0 ∧ (widenSeed x).extractLsb' 0 32 = x) ∧
    (∀ x : Seed, x.toNat < 2 ^ 31 → widenSeedAs .sign x = widenSeed x) ∧
    ∀ x : Seed, 2 ^ 31 ≤ x.toNat → (widenSeedAs .sign x).extractLsb' 32 32 = 0xffffffff

/-- R45, R46: byte `i` of the digest is byte lane `i` of `rdata`, `h1` first, each word little-endian; a whole beat with
nothing pending is read as `k1 = data[63:0]`, `k2 = data[127:64]`. -/
def Obligations.DigestAndDataLanes : Prop :=
  (∀ h : Word × Word, (serialise h).length = 16 ∧ (wordsData h).extractLsb' 0 64 = h.1 ∧
    (wordsData h).extractLsb' 64 64 = h.2 ∧
    (∀ i < 16, (serialise h)[i]? = some ((wordsData h).extractLsb' (8 * i) 8)) ∧
    ∀ i < 8, (serialise h)[i]? = some (h.1.extractLsb' (8 * i) 8) ∧
      (serialise h)[8 + i]? = some (h.2.extractLsb' (8 * i) 8)) ∧
  ∀ data : Payload, (∀ i < 16, (beatBytesOf 16 data)[i]? = some (data.extractLsb' (8 * i) 8)) ∧
    le64 (slice (beatBytesOf 16 data) 0 8) = data.extractLsb' 0 64 ∧
    le64 (slice (beatBytesOf 16 data) 8 16) = data.extractLsb' 64 64

/-! ### The commands, in an unfaulted engine (40, 41, 42) -/

/-- R80: NEW stores the seed, widens it into both accumulators, empties the stream, answers OK and 0; nothing else of
the machine changes. -/
def Obligations.NewStoresTheSeedAndResets : Prop :=
  ∀ (x : Seed) (s : State), s.fcause = 0 →
    exec (.new x) s = .next { s with
      seed := x, h1 := x.setWidth 64, h2 := x.setWidth 64, totalLength := 0, pending := []
      responses := s.responses ++ [packRsp 0 0] }

/-- R81: RESET puts the data state back to the stored seed; `seed`, `fcause` and the rest of the machine are unchanged. -/
def Obligations.ResetReturnsToTheSeed : Prop :=
  ∀ s : State, s.fcause = 0 →
    exec .reset s = .next { s with
      h1 := s.seed.setWidth 64, h2 := s.seed.setWidth 64, totalLength := 0, pending := []
      responses := s.responses ++ [packRsp 0 0] }

/-- R82: DIGEST_LENGTH answers 16 in every unfaulted state and changes no state. -/
def Obligations.DigestLengthAnswersSixteen : Prop :=
  ∀ s : State, s.fcause = 0 →
    exec .digestLength s = .next { s with responses := s.responses ++ [packRsp 0 16] }

/-- R90: UPDATE of 0 to 16 bytes on 0 to 15 pending ones: at most one block is cut, from the first 16 bytes of
`pending ++ b`; the rest is pending; the count grows by `n`; `seed`, `fcause` and the rest are unchanged. -/
def Obligations.UpdateAppendsABeat : Prop :=
  ∀ (b : List Byte) (s : State), s.fcause = 0 → s.pending.length ≤ 15 → b.length ≤ 16 →
    exec (.update b) s = .next
      (if 16 ≤ (s.pending ++ b).length then
        { s with
          h1 := (blockMix (s.h1, s.h2) (le64 (slice (s.pending ++ b) 0 8)) (le64 (slice (s.pending ++ b) 8 16))).1
          h2 := (blockMix (s.h1, s.h2) (le64 (slice (s.pending ++ b) 0 8)) (le64 (slice (s.pending ++ b) 8 16))).2
          pending := slice (s.pending ++ b) 16 (s.pending ++ b).length
          totalLength := s.totalLength + BitVec.ofNat 64 b.length
          responses := s.responses ++ [packRsp 0 0] }
      else
        { s with
          pending := s.pending ++ b
          totalLength := s.totalLength + BitVec.ofNat 64 b.length
          responses := s.responses ++ [packRsp 0 0] })

/-- R100: FINALIZE with fewer than 16 bytes pending, step by step: the response carries the digest words and the data
state is reset; `seed`, `fcause` and the rest are unchanged. -/
def Obligations.FinalizeAnswersTheDigestAndResets : Prop :=
  ∀ (s : State) (a1 b1 a2 b2 a3 b3 a4 b4 a5 b5 : Word), s.fcause = 0 → s.pending.length < 16 →
    a1 = (if 1 ≤ s.pending.length then s.h1 ^^^ mixK1 (tailWords s.pending).1 else s.h1) →
    b1 = (if 1 ≤ s.pending.length then s.h2 ^^^ mixK2 (tailWords s.pending).2 else s.h2) →
    a2 = a1 ^^^ s.totalLength → b2 = b1 ^^^ s.totalLength →
    a3 = a2 + b2 → b3 = b2 + a3 →
    a4 = fmix64 a3 → b4 = fmix64 b3 →
    a5 = a4 + b4 → b5 = b4 + a5 →
    exec .finalize s = .next { s with
      h1 := s.seed.setWidth 64, h2 := s.seed.setWidth 64, totalLength := 0, pending := []
      responses := s.responses ++ [packRsp 0 (b5 ++ a5)] }

/-- R34, whole: the table of reset values, and that hardware reset leaves the state of NEW(0). -/
def Obligations.ResetValuesOfEveryItem : Prop :=
  (State.reset.seed = 0 ∧ State.reset.h1 = 0 ∧ State.reset.h2 = 0 ∧ State.reset.totalLength = 0 ∧
    State.reset.pending = [] ∧ State.reset.fcause = 0) ∧
  (∀ (s : State) (rest : List Input), s.inputs = .rst :: rest →
    ∃ t, step s = .next t ∧ t.seed = 0 ∧ t.h1 = 0 ∧ t.h2 = 0 ∧ t.totalLength = 0 ∧ t.pending = [] ∧ t.fcause = 0) ∧
  (∀ (x : Seed) (s : State), s.fcause = 0 → ∃ t, exec (.new x) s = .next t ∧ t.seed = x ∧ t.h1 = x.setWidth 64 ∧
    t.h2 = x.setWidth 64 ∧ t.totalLength = 0 ∧ t.pending = [] ∧ t.fcause = s.fcause) ∧
  (∀ s : State, s.fcause = 0 → ∃ t, exec .reset s = .next t ∧ t.seed = s.seed ∧ t.h1 = s.seed.setWidth 64 ∧
    t.h2 = s.seed.setWidth 64 ∧ t.totalLength = 0 ∧ t.pending = [] ∧ t.fcause = s.fcause) ∧
  (∀ s : State, s.fcause = 0 → s.pending.length < 16 → ∃ t, exec .finalize s = .next t ∧ t.seed = s.seed ∧
    t.h1 = s.seed.setWidth 64 ∧ t.h2 = s.seed.setWidth 64 ∧ t.totalLength = 0 ∧ t.pending = [] ∧
    t.fcause = s.fcause) ∧
  ∀ s : State, s.fcause = 0 → digestAfter [newDefault] s = some State.reset.toDigestState

/-- R83: the six laws of the lifecycle commands. -/
def Obligations.LifecycleLaws : Prop :=
  ∀ σ : State, σ.fcause = 0 →
    (∀ s t : Seed, digestAfter [.new s, .new t] σ = digestAfter [.new t] σ) ∧
    (∀ s : Seed, digestAfter [.new s, .reset] σ = digestAfter [.new s] σ ∧
      digestAfter [.reset, .new s] σ = digestAfter [.new s] σ) ∧
    digestAfter [.reset, .reset] σ = digestAfter [.reset] σ ∧
    (∀ X : List (List Byte), digestAfter (X.map .update ++ [.reset]) σ = digestAfter [.reset] σ) ∧
    digestAfter [.finalize, .reset] σ = digestAfter [.finalize] σ ∧
    ∀ i : Instr, digestAfter [.digestLength, i] σ = digestAfter [i] σ ∧
      digestAfter [i, .digestLength] σ = digestAfter [i] σ ∧
      ∃ t u r r', execAll [.digestLength, i] σ = .next t ∧ execAll [i, .digestLength] σ = .next u ∧
        t.responses = σ.responses ++ [packRsp 0 16, r] ∧ u.responses = σ.responses ++ [r, r']

/-- R32, the writes: what each command leaves unchanged, and that no command touches the host's list or position. -/
def Obligations.CommandsWriteOnlyTheirColumns : Prop :=
  ∀ (i : Instr) (s t : State), exec i s = .next t →
    t.inputs = s.inputs ∧ t.position = s.position ∧ (∃ r, t.responses = s.responses ++ [r]) ∧
    ((∀ x, i ≠ .new x) → t.seed = s.seed) ∧
    ((i = .digestLength ∨ i.isIllegal = true) → t.h1 = s.h1 ∧ t.h2 = s.h2 ∧ t.totalLength = s.totalLength ∧
      t.pending = s.pending ∧ t.seed = s.seed) ∧
    (i.isIllegal = false → i ≠ .finalize → t.fcause = s.fcause) ∧
    (i = .finalize → s.pending.length < 16 → t.fcause = s.fcause) ∧
    (s.fcause ≠ 0 → t.toDigestState = s.toDigestState)

/-- R32, the reads: NEW reads none of the old data state, RESET only `seed`, UPDATE not `seed`, DIGEST_LENGTH and an
illegal word only `fcause`. -/
def Obligations.CommandsReadOnlyTheirColumns : Prop :=
  (∀ (x : Seed) (s : State) (d : DigestState), s.fcause = 0 → d.fcause = 0 →
    exec (.new x) (s.withDigest d) = exec (.new x) s) ∧
  (∀ (s : State) (d : DigestState), s.fcause = 0 → d.fcause = 0 → d.seed = s.seed →
    exec .reset (s.withDigest d) = exec .reset s) ∧
  (∀ (b : List Byte) (x : Seed) (s t : State), exec (.update b) s = .next t →
    exec (.update b) { s with seed := x } = .next { t with seed := x }) ∧
  ∀ (i : Instr) (s : State) (d : DigestState), (i = .digestLength ∨ i.isIllegal = true) → d.fcause = s.fcause →
    ∃ t u, exec i s = .next t ∧ exec i (s.withDigest d) = .next u ∧ t.responses = u.responses ∧ t.fcause = u.fcause

/-- R104: the state after FINALIZE is the state after NEW(seed); a second FINALIZE gives the digest of the empty stream. -/
def Obligations.ReuseAfterFinalize : Prop :=
  ∀ s : State, s.fcause = 0 → s.pending.length < 16 →
    digestAfter [.finalize] s = digestAfter [.new s.seed] s ∧
    ∃ t r, execAll [.finalize, .finalize] s = .next t ∧
      t.responses = s.responses ++ [r, packRsp 0 (wordsData (digestOf s.seed []))]

/-! ### Laws of UPDATE (41_update.md) -/

/-- R91: `update` of any length: the `floor(m / 16)` blocks of `pending ++ b` are mixed in order, `m mod 16` bytes remain.
That one command is this loop also on 16 or more pending bytes, a state no run reaches, is notes/assumptions/4.md. -/
def Obligations.UpdateMixesBlocksInOrder : Prop :=
  ∀ (d : DigestState) (b : List Byte),
    ((d.absorb b).h1, (d.absorb b).h2) =
        (List.range ((d.pending ++ b).length / 16)).foldl
          (fun h j => blockMix h (le64 (slice (d.pending ++ b) (16 * j) (16 * j + 8)))
            (le64 (slice (d.pending ++ b) (16 * j + 8) (16 * j + 16)))) (d.h1, d.h2) ∧
      (d.absorb b).pending = slice (d.pending ++ b) (16 * ((d.pending ++ b).length / 16)) (d.pending ++ b).length ∧
      (d.absorb b).pending.length = (d.pending.length + b.length) % 16 ∧
      (d.absorb b).totalLength.toNat = (d.totalLength.toNat + b.length) % 2 ^ 64

/-- R92: the beat, case by case, with the new length of `pending` the new `total_length[3:0]`. -/
def Obligations.BeatCaseByCase : Prop :=
  ∀ (b : List Byte) (s : State), s.fcause = 0 → s.toDigestState.Inv → b.length ≤ 16 →
    ∃ t, exec (.update b) s = .next t ∧
      (s.pending.length + b.length ≤ 15 →
        t.h1 = s.h1 ∧ t.h2 = s.h2 ∧ t.pending = s.pending ++ b ∧ t.pending.length = s.pending.length + b.length) ∧
      (16 ≤ s.pending.length + b.length →
        (t.h1, t.h2) = blockMix (s.h1, s.h2)
          (le64 (slice (s.pending ++ slice b 0 (16 - s.pending.length)) 0 8))
          (le64 (slice (s.pending ++ slice b 0 (16 - s.pending.length)) 8 16)) ∧
        t.pending = slice b (16 - s.pending.length) b.length ∧
        t.pending.length = s.pending.length + b.length - 16 ∧ t.pending.length ≤ s.pending.length) ∧
      t.pending.length = (s.pending.length + b.length) % 16 ∧ t.pending.length = t.totalLength.toNat % 16

/-- R94: an UPDATE of no bytes changes nothing of the architectural state. -/
def Obligations.EmptyUpdateChangesNothing : Prop :=
  ∀ s : State, s.fcause = 0 → s.pending.length < 16 →
    exec (.update []) s = .next { s with responses := s.responses ++ [packRsp 0 0] }

/-- R95: chunking invariance, for two chunks from any state and for any cutting of a byte sequence. -/
def Obligations.ChunkingInvariance : Prop :=
  (∀ (d : DigestState) (x y : List Byte), (d.absorb x).absorb y = d.absorb (x ++ y)) ∧
    ∀ (d : DigestState) (chunks : List (List Byte)), d.pending.length < 16 →
      chunks.foldl DigestState.absorb d = d.absorb chunks.flatten ∧
      (chunks.foldl DigestState.absorb d).digestWords = (d.absorb chunks.flatten).digestWords

/-- R96: any sequence of UPDATE commands of 0 to 16 bytes leaves the state of one `update` of all the bytes, answering OK
each time. -/
def Obligations.BeatsEqualOneLongUpdate : Prop :=
  ∀ (s : State) (chunks : List (List Byte)) (rest : List Input), s.fcause = 0 → s.pending.length < 16 →
    (∀ c ∈ chunks, c.length ≤ 16) → s.inputs = inputsOf (chunks.map .update) ++ rest →
    Host.Core.run core chunks.length s = .next
      { s.withDigest (s.toDigestState.absorb chunks.flatten) with
        inputs := rest
        position := s.position + chunks.length
        responses := s.responses ++ List.replicate chunks.length (packRsp 0 0) }

/-! ### The stream and the digest (10_state.md R27, R28; 42_finalize.md) -/

/-- R27: in the state of a stream, `pending` is as long as the stream modulo 16 and as `total_length[3:0]`, the blocks
mixed are the quotient, and FINALIZE has a tail exactly when `total_length[3:0]` is not 0. -/
def Obligations.StreamLengths : Prop :=
  ∀ (seed : Seed) (S : List Byte),
    (streamState seed S).pending.length = S.length % 16 ∧
      S.length % 16 = (streamState seed S).totalLength.toNat % 16 ∧
      (S.length < 2 ^ 64 → S.length / 16 = (streamState seed S).totalLength.toNat / 16) ∧
      ((streamState seed S).hasTail = true ↔ (streamState seed S).totalLength.toNat % 16 ≠ 0)

/-- R28, R26: from the state of a stream, every step leaves the state of the stream that its input makes; an illegal word
changes only the latch. -/
def Obligations.StepFollowsTheStream : Prop :=
  State.reset.toDigestState = streamState 0 [] ∧
  (∀ (s : State) (w : Cmd) (rest : List Input) (seed : Seed) (S : List Byte), s.inputs = .cmd w :: rest →
    s.toDigestState = streamState seed S →
    ∃ t, step s = .next t ∧
      ((decode w).isIllegal = false →
        t.toDigestState =
          streamState (streamAfter (decode w) (seed, S)).1 (streamAfter (decode w) (seed, S)).2) ∧
      ((decode w).isIllegal = true → t.toDigestState = { streamState seed S with fcause := 2 })) ∧
  ∀ (s : State) (rest : List Input), s.inputs = .rst :: rest →
    ∃ t, step s = .next t ∧ t.toDigestState = streamState 0 []

/-- R28: in every unfaulted state reachable from hardware reset, whatever the host issues, the state is that of the seed
and the stream since the last reset. -/
def Obligations.ReachableStatesAreStreamStates : Prop :=
  ∀ (L : List Input) (k : Nat) (t : State), k ≤ L.length →
    Host.Core.run core k { State.reset with inputs := L } = .next t → t.fcause = 0 →
    t.toDigestState =
      streamState ((L.take k).foldl streamAfterInput (0, [])).1 ((L.take k).foldl streamAfterInput (0, [])).2

/-- R101: FINALIZE in the state of a stream answers `Digest(seed, S)`, whose bytes are the lanes of `rdata`, and leaves
the state of the empty stream under the same seed. -/
def Obligations.FinalizeAnswersDigestOfTheStream : Prop :=
  ∀ (s : State) (seed : Seed) (S : List Byte), s.toDigestState = streamState seed S →
    exec .finalize s = .next
      { s.withDigest (streamState seed []) with
        responses := s.responses ++ [packRsp 0 (wordsData (digestOf seed S))] } ∧
    ∀ i < 16, (digestBytesOf seed S)[i]? = some (laneByte (wordsData (digestOf seed S)) i)

/-- R102: the digest of the empty stream, for every seed and for seeds 0 and 1. -/
def Obligations.EmptyStreamDigest : Prop :=
  (∀ (seed : Seed) (z a b : Word), z = seed.setWidth 64 → a = z + z → b = z + a →
    digestOf seed [] = (fmix64 a + fmix64 b, fmix64 b + (fmix64 a + fmix64 b))) ∧
  digestBytesOf 0 [] = List.replicate 16 0 ∧ digestOf 1 [] = (0x4610abe56eff5cb5, 0x51622daa78f83583) ∧
  ∀ (s : State) (x : Seed), s.fcause = 0 → ∃ t, execAll [.new x, .finalize] s = .next t ∧
    t.responses = s.responses ++ [packRsp 0 0, packRsp 0 (wordsData (digestOf x []))]

/-- R103: a stream of whole blocks has no tail at FINALIZE: every byte is in a block, and the tail step changes nothing. -/
def Obligations.WholeBlocksHaveNoTail : Prop :=
  ∀ (seed : Seed) (S : List Byte), S.length % 16 = 0 →
    (streamState seed S).pending = [] ∧ (streamState seed S).hasTail = false ∧
    (streamState seed S).tailStep = foldBlocks seed S (S.length / 16) ∧
    (S.length = 16 → foldBlocks seed S (S.length / 16) =
      blockMix (seed.setWidth 64, seed.setWidth 64) (le64 (slice S 0 8)) (le64 (slice S 8 16)))

/-- R74, R101: `HASH seed, bytes` from any unfaulted state answers OK to each command and `Digest(seed, bytes)` last, and
leaves the engine fresh under that seed. -/
def Obligations.HashAnswersTheDigest : Prop :=
  ∀ (s : State) (seed : Seed) (bytes : List Byte) (rest : List Input), s.fcause = 0 →
    s.inputs = inputsOf (hashOf seed bytes) ++ rest →
    Host.Core.run core (hashOf seed bytes).length s = .next
      { s.withDigest (streamState seed []) with
        inputs := rest
        position := s.position + (hashOf seed bytes).length
        responses := s.responses ++ List.replicate ((bytes.length + 15) / 16 + 1) (packRsp 0 0) ++
          [packRsp 0 (wordsData (digestOf seed bytes))] }

/-! ### Faults (60_exceptions.md) -/

/-- R132, R133: each illegal instruction in an unfaulted engine latches code 2, answers `FAULT_ILLEGAL` and 0, and changes
nothing else. -/
def Obligations.IllegalInstructionsLatch : Prop :=
  ∀ s : State, s.fcause = 0 →
    exec .illegalOp0 s = .next { s with fcause := 2, responses := s.responses ++ [packRsp 2 0] } ∧
    exec .illegalOp6 s = .next { s with fcause := 2, responses := s.responses ++ [packRsp 2 0] } ∧
    exec .illegalOp7 s = .next { s with fcause := 2, responses := s.responses ++ [packRsp 2 0] } ∧
    ∀ len : BitVec 5,
      exec (.illegalUpdateLen len) s = .next { s with fcause := 2, responses := s.responses ++ [packRsp 2 0] }

/-- R131, R133: FINALIZE that finds 16 or more pending bytes latches code 1: no digest and no reset. -/
def Obligations.BrokenTailLatches : Prop :=
  ∀ s : State, s.fcause = 0 → 16 ≤ s.pending.length →
    exec .finalize s = .next { s with fcause := 1, responses := s.responses ++ [packRsp 1 0] }

/-- R134: the order of the checks for every command word. -/
def Obligations.ChecksInOrder : Prop :=
  ∀ (s : State) (w : Cmd) (rest : List Input), s.inputs = .cmd w :: rest →
    step s =
      if s.fcause ≠ 0 then
        .next { s with inputs := rest, position := s.position + 1
                       responses := s.responses ++ [packRsp (s.fcause.setWidth 8) 0] }
      else if (decode w).isIllegal then
        .next { s with fcause := 2, inputs := rest, position := s.position + 1
                       responses := s.responses ++ [packRsp 2 0] }
      else exec (decode w) { s with inputs := rest, position := s.position + 1 }

/-- R130, R133: the two faults, their causes, and that a faulting command changes nothing but `fcause`. -/
def Obligations.FaultsHaveTwoCausesAndArePrecise : Prop :=
  ∀ (i : Instr) (s t : State), exec i s = .next t → s.fcause = 0 →
    (t.fcause = 1 ↔ i = .finalize ∧ 16 ≤ s.pending.length) ∧ (t.fcause = 2 ↔ i.isIllegal = true) ∧
    (t.fcause = 0 ∨ t.fcause = 1 ∨ t.fcause = 2) ∧
    (t.fcause ≠ 0 → t = { s with fcause := t.fcause
                                 responses := s.responses ++ [packRsp (t.fcause.setWidth 8) 0] })

/-- R25, R135: once not 0, `fcause` is changed by no step but hardware reset, which clears it with the stream. -/
def Obligations.OnlyHardwareResetClearsTheLatch : Prop :=
  ∀ s t : State, step s = .next t → s.fcause ≠ 0 →
    ((∀ rest, s.inputs ≠ .rst :: rest) → t.toDigestState = s.toDigestState) ∧
    ((∃ rest, s.inputs = .rst :: rest) → t.toDigestState = State.reset.toDigestState)

/-- R24: a step changes `seed` only by NEW, to its operand, or by hardware reset, to the default. -/
def Obligations.SeedWrittenOnlyByNewAndHardwareReset : Prop :=
  ∀ s t : State, step s = .next t → t.seed ≠ s.seed →
    (∃ rest, s.inputs = .rst :: rest ∧ t.seed = 0) ∨
      ∃ w rest, s.inputs = .cmd w :: rest ∧ s.fcause = 0 ∧ decode w = .new t.seed

/-- R160, R135: a faulted engine answers every later command with its fault status and does nothing, for as long as no
hardware reset comes. -/
def Obligations.FaultedEngineStaysFaulted : Prop :=
  ∀ (ws : List Cmd) (s : State) (rest : List Input), s.fcause ≠ 0 → s.inputs = ws.map .cmd ++ rest →
    Host.Core.run core ws.length s = .next
      { s with
        inputs := rest
        position := s.position + ws.length
        responses := s.responses ++ List.replicate ws.length (packRsp (s.fcause.setWidth 8) 0) }

/-- R131: no sequence of inputs makes FINALIZE find a broken tail, from any state that meets the invariant. -/
def Obligations.BrokenTailIsUnreachable : Prop :=
  ∀ (k : Nat) (s t : State), s.Inv → s.fcause ≠ 1 → Host.Core.run core k s = .next t →
    t.fcause ≠ 1 ∧ t.pending.length < 16

/-! ### The machine (30_encoding.md R60; 10_state.md R26, R30) -/

/-- A step with a command word at the head of the host's list runs exactly the decoded instruction, on the machine with
that word taken off the list and the position advanced by 1. -/
def Obligations.StepRunsTheDecodedInstruction : Prop :=
  ∀ (s : State) (w : Cmd) (rest : List Input), s.inputs = .cmd w :: rest →
    step s = exec (decode w) { s with inputs := rest, position := s.position + 1 }

/-- The word placed by `withFetchWord` is the one the next step runs, and the one `decodeTableWord` decodes. Placing a word
at the head of the host's list is the model's choice (notes/assumptions/1.md). -/
def Obligations.FetchWordRunsTheTableWord : Prop :=
  ∀ (s : State) (nbits w : Nat), ∃ i, decodeTableWord nbits w = some i ∧
    step (s.withFetchWord nbits w) = exec i { s with position := s.position + 1 } ∧
    i = decode (BitVec.ofNat 136 (w % 2 ^ nbits))

/-- R145: with no command to execute the engine holds its state. That a step with an empty host's list is the state itself
is the model's choice (notes/assumptions/1.md). -/
def Obligations.IdleEngineHoldsItsState : Prop :=
  ∀ (s : State) (k : Nat), s.inputs = [] → Host.Core.run core k s = .next s

/-- R150: hardware reset sets every item, gives no response, and leaves the host's position. That it comes as an entry of
the host's list is the model's choice (notes/assumptions/5.md). -/
def Obligations.HardwareResetSetsEveryItem : Prop :=
  ∀ (s : State) (rest : List Input), s.inputs = .rst :: rest →
    step s = .next { s with
      seed := 0, h1 := 0, h2 := 0, totalLength := 0, pending := [], fcause := 0, inputs := rest }

/-- R60, R30: every step answers; a command gives exactly one response and advances the position by exactly 1, nothing
else moves it; the host's list is taken in order. The fields that hold list, position and responses are the model's own
(notes/assumptions/3.md). -/
def Obligations.OneResponsePerCommand : Prop :=
  ∀ s : State, ∃ t, step s = .next t ∧
    (∀ w rest, s.inputs = .cmd w :: rest → t.inputs = rest ∧ t.position = s.position + 1 ∧
      ∃ r, t.responses = s.responses ++ [r]) ∧
    (∀ rest, s.inputs = .rst :: rest → t.inputs = rest ∧ t.position = s.position ∧ t.responses = s.responses) ∧
    (s.inputs = [] → t = s)

/-- R26, R27, R25, R66: every step keeps the invariant, from every state that meets it. Its clause on the number of
responses is over the model's own fields (notes/assumptions/3.md). -/
def Obligations.StepKeepsTheInvariant : Prop :=
  ∀ s t : State, s.Inv → step s = .next t → t.Inv

/-- The invariant holds right after reset, whatever the host then has to issue. -/
def Obligations.ResetMeetsTheInvariant : Prop :=
  ∀ L : List Input, { State.reset with inputs := L }.Inv
end

