-- ==== Sys2Proof/Laws/Arith.lean ====
section
/-! SUPPORT. One lemma for each arithmetic primitive: its value as a number or bit by bit (43_mix_functions.md R111 to R116). -/

namespace Sys2Proof.Machine

theorem add64_toNat (a b : Word) : (add64 a b).toNat = (a.toNat + b.toNat) % 2 ^ 64 := BitVec.toNat_add a b

theorem mul64_toNat (a b : Word) : (mul64 a b).toNat = a.toNat * b.toNat % 2 ^ 64 := BitVec.toNat_mul a b

theorem xor64_toNat (a b : Word) : (xor64 a b).toNat = a.toNat ^^^ b.toNat := BitVec.toNat_xor a b

theorem shr64_toNat (a : Word) (r : Nat) : (shr64 a r).toNat = a.toNat / 2 ^ r := by
  simp [shr64, Nat.shiftRight_eq_div_pow]

theorem shl64_toNat (a : Word) (r : Nat) : (shl64 a r).toNat = a.toNat * 2 ^ r % 2 ^ 64 := by
  simp [shl64, Nat.shiftLeft_eq]

/-- The word of a longer list, while no byte is lost. -/
theorem le64_cons_toNat (b : Byte) {bs : List Byte} (h : (le64 bs).toNat < 2 ^ 56) :
    (le64 (b :: bs)).toNat = b.toNat + 256 * (le64 bs).toNat := by
  have hb := b.isLt
  simp only [le64, add64_toNat, shl64_toNat, BitVec.toNat_setWidth]
  omega

/-- The bytes of a list bound its word. -/
theorem le64_lt : ∀ {s : List Byte}, s.length ≤ 8 → (le64 s).toNat < 2 ^ (8 * s.length)
  | [], _ => by simp [le64]
  | b :: bs, h => by
    have hl : bs.length ≤ 7 := by simpa [Nat.lt_succ_iff] using h
    have ih := le64_lt (s := bs) (by omega)
    have h56 : (le64 bs).toNat < 2 ^ 56 := ih.trans_le (Nat.pow_le_pow_right (by norm_num) (by omega))
    have hb := b.isLt
    rw [le64_cons_toNat b h56, List.length_cons, Nat.mul_add, pow_add]
    omega

/-- A byte list's subsequence has the expected length. -/
theorem slice_length (s : List Byte) (a b : Nat) : (slice s a b).length = min (b - a) (s.length - a) := by
  simp [slice]

end Sys2Proof.Machine
end

