-- ==== Sys2Proof/Laws/Decode.lean ====
section
/-! SUPPORT. The fields of a packed word, and the byte lanes of a packed payload (30_encoding.md R61, R64). -/

namespace Sys2Proof

/-- A packed word bit by bit (R61). -/
theorem getLsbD_packCmd (op : BitVec 3) (len : BitVec 5) (data : Payload) (i : Nat) :
    (packCmd op len data).getLsbD i =
      if i < 3 then op.getLsbD i else if i < 8 then len.getLsbD (i - 3) else data.getLsbD (i - 8) := by
  have h1 : (packCmd op len data).getLsbD i = if i < 3 then op.getLsbD i else (data ++ len).getLsbD (i - 3) :=
    BitVec.getLsbD_append (x := data ++ len) (y := op)
  have h2 : (data ++ len).getLsbD (i - 3) = if i - 3 < 5 then len.getLsbD (i - 3) else data.getLsbD (i - 3 - 5) :=
    BitVec.getLsbD_append (x := data) (y := len)
  rw [h1, h2]
  by_cases h3 : i < 3
  · simp [h3]
  · by_cases h8 : i < 8
    · simp [h3, h8, show i - 3 < 5 by omega]
    · simp [h3, h8, show ¬ i - 3 < 5 by omega, show i - 3 - 5 = i - 8 by omega]

@[simp] theorem cmdOp_packCmd (op : BitVec 3) (len : BitVec 5) (data : Payload) : cmdOp (packCmd op len data) = op := by
  ext i hi
  simp [cmdOp, getLsbD_packCmd, hi]

@[simp] theorem cmdLen_packCmd (op : BitVec 3) (len : BitVec 5) (data : Payload) :
    cmdLen (packCmd op len data) = len := by
  ext i hi
  simp [cmdLen, getLsbD_packCmd, show ¬ 3 + i < 3 by omega, show 3 + i < 8 by omega, hi]

@[simp] theorem cmdData_packCmd (op : BitVec 3) (len : BitVec 5) (data : Payload) :
    cmdData (packCmd op len data) = data := by
  ext i hi
  simp [cmdData, getLsbD_packCmd, show ¬ 8 + i < 3 by omega, hi]

/-- Lane `i` of the packed bytes is byte `i`, and 0 beyond the last. -/
theorem laneByte_packBytes : ∀ (b : List Byte) (i : Nat), i < 16 → laneByte (packBytes b) i = b.getD i 0
  | [], i, _ => by simp [packBytes, laneByte]
  | x :: xs, 0, _ => by
    ext j hj
    have h1 : j < 128 := by omega
    simp [packBytes, laneByte, hj, h1]
  | x :: xs, i + 1, hi => by
    have ih := laneByte_packBytes xs i (by omega)
    rw [List.getD_cons_succ, ← ih]
    ext j hj
    have h1 : 8 * (i + 1) + j < 128 := by omega
    have h2 : ¬ 8 * (i + 1) + j < 8 := by omega
    have h3 : 8 * (i + 1) + j - 8 = 8 * i + j := by omega
    simp [packBytes, laneByte, h1, h2, h3, BitVec.getLsbD_of_ge x (8 * (i + 1) + j) (by omega)]
    exact (BitVec.getLsbD_eq_getElem (by omega)).symm

/-- Byte `i` of the word read from a byte list (R72). -/
theorem wordOfBytes_byte : ∀ (n : Nat) (b : List Byte) (i : Nat), i < n → i < 17 →
    (wordOfBytes n b).extractLsb' (8 * i) 8 = b.getD i 0
  | n + 1, [], i, _, _ => by simp [wordOfBytes]
  | n + 1, x :: xs, 0, _, _ => by
    ext j hj
    have h1 : j < 136 := by omega
    simp [wordOfBytes, hj, h1]
  | n + 1, x :: xs, i + 1, hn, hi => by
    have ih := wordOfBytes_byte n xs i (by omega) (by omega)
    rw [List.getD_cons_succ, ← ih]
    ext j hj
    have h1 : 8 * (i + 1) + j < 136 := by omega
    have h2 : ¬ 8 * (i + 1) + j < 8 := by omega
    have h3 : 8 * (i + 1) + j - 8 = 8 * i + j := by omega
    simp [wordOfBytes, h1, h2, h3, BitVec.getLsbD_of_ge x (8 * (i + 1) + j) (by omega)]
    exact (BitVec.getLsbD_eq_getElem (by omega)).symm

/-- Two words with the same 17 bytes are the same word. -/
theorem word_ext_bytes {v w : BitVec 136} (h : ∀ i < 17, v.extractLsb' (8 * i) 8 = w.extractLsb' (8 * i) 8) : v = w := by
  refine BitVec.eq_of_getLsbD_eq fun j hj => ?_
  have hb := congrArg (fun x : BitVec 8 => x.getLsbD (j % 8)) (h (j / 8) (by omega))
  simpa [show j % 8 < 8 by omega, show 8 * (j / 8) + j % 8 = j by omega] using hb

end Sys2Proof
end

