-- ==== Sys2Proof/Laws/State.lean ====
section
/-! SUPPORT. One lemma for each field of the state under each update, true by rfl, so that no proof unfolds a record
update. -/

namespace Sys2Proof.Machine

/-! ### Updates of the architectural state -/

@[simp] theorem clearStream_h1 (d : DigestState) : (d.clearStream).h1 = widenSeed d.seed := rfl
@[simp] theorem clearStream_h2 (d : DigestState) : (d.clearStream).h2 = widenSeed d.seed := rfl
@[simp] theorem clearStream_totalLength (d : DigestState) : (d.clearStream).totalLength = 0 := rfl
@[simp] theorem clearStream_pending (d : DigestState) : (d.clearStream).pending = [] := rfl
@[simp] theorem clearStream_seed (d : DigestState) : (d.clearStream).seed = d.seed := rfl
@[simp] theorem clearStream_fcause (d : DigestState) : (d.clearStream).fcause = d.fcause := rfl

@[simp] theorem storeSeed_h1 (d : DigestState) (x : Seed) : (d.storeSeed x).h1 = d.h1 := rfl
@[simp] theorem storeSeed_h2 (d : DigestState) (x : Seed) : (d.storeSeed x).h2 = d.h2 := rfl
@[simp] theorem storeSeed_totalLength (d : DigestState) (x : Seed) : (d.storeSeed x).totalLength = d.totalLength := rfl
@[simp] theorem storeSeed_pending (d : DigestState) (x : Seed) : (d.storeSeed x).pending = d.pending := rfl
@[simp] theorem storeSeed_seed (d : DigestState) (x : Seed) : (d.storeSeed x).seed = x := rfl
@[simp] theorem storeSeed_fcause (d : DigestState) (x : Seed) : (d.storeSeed x).fcause = d.fcause := rfl

@[simp] theorem latch_h1 (d : DigestState) (c : FaultCause) : (d.latch c).h1 = d.h1 := rfl
@[simp] theorem latch_h2 (d : DigestState) (c : FaultCause) : (d.latch c).h2 = d.h2 := rfl
@[simp] theorem latch_totalLength (d : DigestState) (c : FaultCause) : (d.latch c).totalLength = d.totalLength := rfl
@[simp] theorem latch_pending (d : DigestState) (c : FaultCause) : (d.latch c).pending = d.pending := rfl
@[simp] theorem latch_seed (d : DigestState) (c : FaultCause) : (d.latch c).seed = d.seed := rfl
@[simp] theorem latch_fcause (d : DigestState) (c : FaultCause) : (d.latch c).fcause = causeCode c := rfl

theorem absorb_h1 (d : DigestState) (b : List Byte) : (d.absorb b).h1 = (absorbBlocks ((d.pending ++ b).length / 16) (d.h1, d.h2) (d.pending ++ b)).1.1 := rfl
theorem absorb_h2 (d : DigestState) (b : List Byte) : (d.absorb b).h2 = (absorbBlocks ((d.pending ++ b).length / 16) (d.h1, d.h2) (d.pending ++ b)).1.2 := rfl
@[simp] theorem absorb_totalLength (d : DigestState) (b : List Byte) : (d.absorb b).totalLength = add64 d.totalLength (BitVec.ofNat 64 b.length) := rfl
theorem absorb_pending (d : DigestState) (b : List Byte) : (d.absorb b).pending = (absorbBlocks ((d.pending ++ b).length / 16) (d.h1, d.h2) (d.pending ++ b)).2 := rfl
@[simp] theorem absorb_seed (d : DigestState) (b : List Byte) : (d.absorb b).seed = d.seed := rfl
@[simp] theorem absorb_fcause (d : DigestState) (b : List Byte) : (d.absorb b).fcause = d.fcause := rfl

/-! ### Updates of the machine -/

@[simp] theorem withDigest_toDigestState (s : State) (d : DigestState) : (s.withDigest d).toDigestState = d := rfl
@[simp] theorem withDigest_inputs (s : State) (d : DigestState) : (s.withDigest d).inputs = s.inputs := rfl
@[simp] theorem withDigest_position (s : State) (d : DigestState) : (s.withDigest d).position = s.position := rfl
@[simp] theorem withDigest_responses (s : State) (d : DigestState) : (s.withDigest d).responses = s.responses := rfl

@[simp] theorem respond_toDigestState (s : State) (x : Payload) : (s.respond x).toDigestState = s.toDigestState := rfl
@[simp] theorem respond_inputs (s : State) (x : Payload) : (s.respond x).inputs = s.inputs := rfl
@[simp] theorem respond_position (s : State) (x : Payload) : (s.respond x).position = s.position := rfl
@[simp] theorem respond_responses (s : State) (x : Payload) : (s.respond x).responses = s.responses ++ [packRsp s.toDigestState.status x] := rfl

@[simp] theorem acceptCmd_toDigestState (s : State) (rest : List Input) : (s.acceptCmd rest).toDigestState = s.toDigestState := rfl
@[simp] theorem acceptCmd_inputs (s : State) (rest : List Input) : (s.acceptCmd rest).inputs = rest := rfl
@[simp] theorem acceptCmd_position (s : State) (rest : List Input) : (s.acceptCmd rest).position = s.position + 1 := rfl
@[simp] theorem acceptCmd_responses (s : State) (rest : List Input) : (s.acceptCmd rest).responses = s.responses := rfl

@[simp] theorem hardwareReset_toDigestState (s : State) (rest : List Input) : (s.hardwareReset rest).toDigestState = DigestState.reset := rfl
@[simp] theorem hardwareReset_inputs (s : State) (rest : List Input) : (s.hardwareReset rest).inputs = rest := rfl
@[simp] theorem hardwareReset_position (s : State) (rest : List Input) : (s.hardwareReset rest).position = s.position := rfl
@[simp] theorem hardwareReset_responses (s : State) (rest : List Input) : (s.hardwareReset rest).responses = s.responses := rfl

@[simp] theorem pushCmd_toDigestState (s : State) (w : Cmd) : (s.pushCmd w).toDigestState = s.toDigestState := rfl
@[simp] theorem pushCmd_inputs (s : State) (w : Cmd) : (s.pushCmd w).inputs = .cmd w :: s.inputs := rfl
@[simp] theorem pushCmd_position (s : State) (w : Cmd) : (s.pushCmd w).position = s.position := rfl
@[simp] theorem pushCmd_responses (s : State) (w : Cmd) : (s.pushCmd w).responses = s.responses := rfl

end Sys2Proof.Machine
end

