-- ==== Sys2Proof/Laws/Ops.lean ====
section
/-! SUPPORT. What each shared operation can do, said once. -/

namespace Sys2Proof.Machine

theorem faulted_iff (d : DigestState) : d.faulted = true ↔ d.fcause ≠ 0 := by simp [DigestState.faulted]

theorem faulted_eq_false_iff (d : DigestState) : d.faulted = false ↔ d.fcause = 0 := by simp [DigestState.faulted]

/-- The check that comes first, on a faulted engine (R134 step 1). -/
theorem unlessFaulted_faulted {s : State} (h : s.fcause ≠ 0) (o : Result) : s.unlessFaulted o = .next (s.respond 0) := by
  simp [State.unlessFaulted, (faulted_iff _).2 h]

/-- The check that comes first, on an unfaulted engine. -/
theorem unlessFaulted_clear {s : State} (h : s.fcause = 0) (o : Result) : s.unlessFaulted o = o := by
  simp [State.unlessFaulted, (faulted_eq_false_iff _).2 h]

/-- A command that executed and left no fault answers `OK` (R66). -/
theorem complete_clear (s : State) {d : DigestState} (h : d.fcause = 0) (x : Payload) :
    s.complete d x = .next { s with toDigestState := d, responses := s.responses ++ [packRsp 0 x] } := by
  simp [State.complete, State.withDigest, State.respond, DigestState.status, h]

/-- A faulted engine's answer to any command (R134 step 1). -/
theorem exec_faulted (i : Instr) {s : State} (h : s.fcause ≠ 0) : exec i s = .next (s.respond 0) := by
  cases i <;> exact unlessFaulted_faulted h _

/-- All a step can do: hold, take a hardware reset, or run the next command. -/
theorem step_cases {s t : State} (h : step s = .next t) :
    (s.inputs = [] ∧ t = s) ∨ (∃ rest, s.inputs = .rst :: rest ∧ t = s.hardwareReset rest) ∨
      ∃ w rest, s.inputs = .cmd w :: rest ∧ exec (decode w) (s.acceptCmd rest) = .next t := by
  unfold step at h
  split at h
  · next h0 => exact .inl ⟨h0, by cases h; rfl⟩
  · next rest h0 => exact .inr (.inl ⟨rest, h0, by cases h; rfl⟩)
  · next w rest h0 => exact .inr (.inr ⟨w, rest, h0, h⟩)

/-- The step of a command, from the head of the host's list. -/
theorem step_cmd {s : State} {w : Cmd} {rest : List Input} (h : s.inputs = .cmd w :: rest) :
    step s = exec (decode w) (s.acceptCmd rest) := by
  simp [step, h]

end Sys2Proof.Machine
end

