-- ==== Sys2Proof/Laws/Exec.lean ====
section
/-! SUPPORT. Everything `exec` does, in one equation: a command maps the architectural state to a new one and a result, and
appends one response; the host's list, its position and the earlier responses are neither read nor changed. -/

namespace Sys2Proof.Machine

/-- The new architectural state and `rdata` of a command in an unfaulted engine. -/
def effect : Instr → DigestState → DigestState × Payload
  | .new x, d => ((d.storeSeed x).clearStream, 0)
  | .reset, d => (d.clearStream, 0)
  | .update b, d => (d.absorb b, 0)
  | .finalize, d =>
    if d.tailBroken then (d.latch .invariantViolation, 0) else (d.clearStream, wordsData d.digestWords)
  | .digestLength, d => (d, 16)
  | .illegalOp0, d => (d.latch .illegalCommand, 0)
  | .illegalOp6, d => (d.latch .illegalCommand, 0)
  | .illegalOp7, d => (d.latch .illegalCommand, 0)
  | .illegalUpdateLen _, d => (d.latch .illegalCommand, 0)

/-- The same in any engine: a faulted one does nothing (R134 step 1). -/
def answer (i : Instr) (d : DigestState) : DigestState × Payload := if d.fcause = 0 then effect i d else (d, 0)

theorem answer_clear {d : DigestState} (h : d.fcause = 0) (i : Instr) : answer i d = effect i d := if_pos h

theorem answer_faulted {d : DigestState} (h : d.fcause ≠ 0) (i : Instr) : answer i d = (d, 0) := if_neg h

/-- The architectural state after a list of commands: each acts on the state its predecessor left (20_memory.md R52). -/
def stateAfter (is : List Instr) (d : DigestState) : DigestState := is.foldl (fun d i => (answer i d).1) d

/-- The responses to a list of commands, in order (R60). -/
def responsesTo : List Instr → DigestState → List Rsp
  | [], _ => []
  | i :: is, d => packRsp (answer i d).1.status (answer i d).2 :: responsesTo is (answer i d).1

/-- Everything a command does. -/
theorem exec_eq_answer (i : Instr) (s : State) :
    exec i s = .next ((s.withDigest (answer i s.toDigestState).1).respond (answer i s.toDigestState).2) := by
  by_cases h : s.fcause = 0
  · rw [answer_clear h]
    cases i with
    | finalize =>
      rw [exec, execFinalize, unlessFaulted_clear h, effect]
      split <;> rfl
    | _ => exact unlessFaulted_clear h _
  · rw [answer_faulted h, exec_faulted i h]; rfl

/-- No command makes the model stop. -/
theorem exec_answers (i : Instr) (s : State) : ∃ d x, exec i s = .next ((s.withDigest d).respond x) :=
  ⟨_, _, exec_eq_answer i s⟩

/-- The one next state a command answers. -/
theorem eq_of_exec {i : Instr} {s t : State} (h : exec i s = .next t) :
    t = (s.withDigest (answer i s.toDigestState).1).respond (answer i s.toDigestState).2 := by
  rw [exec_eq_answer] at h
  cases h
  rfl

end Sys2Proof.Machine
end

