-- ==== Sys2Proof/Laws/PerInstr.lean ====
section
/-! SUPPORT. One lemma for each constructor of Instr: the fields of its canonical word (30_encoding.md R61, R62, R68). -/

namespace Sys2Proof.Laws.EncodedFields

/-- The canonical word of `i` has the `op`, `len` and `data` its row gives. -/
def Statement (i : Instr) : Prop :=
  cmdOp (encode i) = opOf i ∧ cmdLen (encode i) = lenOf i ∧ cmdData (encode i) = dataOf i

theorem all (i : Instr) : Statement i := ⟨by simp [encode], by simp [encode], by simp [encode]⟩

theorem new (seed : Seed) : Statement (.new seed) := all _
theorem reset : Statement .reset := all _
theorem update (bytes : List Byte) : Statement (.update bytes) := all _
theorem finalize : Statement .finalize := all _
theorem digestLength : Statement .digestLength := all _
theorem illegalOp0 : Statement .illegalOp0 := all _
theorem illegalOp6 : Statement .illegalOp6 := all _
theorem illegalOp7 : Statement .illegalOp7 := all _
theorem illegalUpdateLen (len : BitVec 5) : Statement (.illegalUpdateLen len) := all _

end Sys2Proof.Laws.EncodedFields
end

