-- ==== Sys2Proof/Laws/Pseudo.lean ====
section
/-! SUPPORT. Lists of commands, run by `execAll` or as the host's inputs. -/

namespace Sys2Proof.Machine

@[simp] theorem execAll_nil (s : State) : execAll [] s = .next s := rfl

@[simp] theorem digestAfter_nil (s : State) : digestAfter [] s = some s.toDigestState := rfl

theorem execAll_cons {i : Instr} {s t : State} (h : exec i s = .next t) (is : List Instr) :
    execAll (i :: is) s = execAll is t := by
  simp [execAll, h]

theorem digestAfter_cons {i : Instr} {s t : State} (h : exec i s = .next t) (is : List Instr) :
    digestAfter (i :: is) s = digestAfter is t := by
  simp only [digestAfter, execAll_cons h]

/-- The architectural state a list of commands leaves is a fold over the list (20_memory.md R52). -/
theorem digestAfter_eq (is : List Instr) (s : State) :
    digestAfter is s = some (stateAfter is s.toDigestState) := by
  induction is generalizing s with
  | nil => rfl
  | cons i is ih => rw [digestAfter_cons (exec_eq_answer i s), ih]; rfl

theorem execAll_append {a : List Instr} {s t : State} (h : execAll a s = .next t) (b : List Instr) :
    execAll (a ++ b) s = execAll b t := by
  induction a generalizing s with
  | nil => cases h; rfl
  | cons i a ih =>
    obtain ⟨d, x, he⟩ := exec_answers i s
    rw [execAll_cons he] at h
    rw [List.cons_append, execAll_cons he, ih h]

theorem run_zero (s : State) : Host.Core.run core 0 s = .next s := rfl

/-- One step of a run that goes on, for any machine behind the host's interface. -/
theorem core_run_next {M : Host.Core} {s t : M.State} (h : M.step s = .next t) (k : Nat) : M.run (k + 1) s = M.run k t := by
  simp [Host.Core.run, h]

theorem core_run_refused {M : Host.Core} {s : M.State} {r : M.Refusal} (h : M.step s = .refused r) (k : Nat) :
    M.run (k + 1) s = .refused r := by
  simp [Host.Core.run, h]

theorem run_succ {s t : State} (h : step s = .next t) (k : Nat) :
    Host.Core.run core (k + 1) s = Host.Core.run core k t := core_run_next (M := core) h k

/-- Two runs one after the other. -/
theorem run_add {j : Nat} {s t : State} (h : Host.Core.run core j s = .next t) (k : Nat) :
    Host.Core.run core (j + k) s = Host.Core.run core k t := by
  induction j generalizing s with
  | zero => cases h; rw [Nat.zero_add]
  | succ j ih =>
    rw [Nat.add_right_comm]
    cases hs : step s with
    | next u => rw [run_succ hs] at h; rw [run_succ hs, ih h]
    | fault r => cases r
    | refused r => exact nomatch (core_run_refused (M := core) hs j).symm.trans h

/-- A run over the canonical words of a list of commands: the state, the responses, the position and what is left. -/
theorem run_commands (is : List Instr) (hd : ∀ i ∈ is, decode (encode i) = i) {s : State} {rest : List Input}
    (hin : s.inputs = inputsOf is ++ rest) :
    Host.Core.run core is.length s = .next
      { toDigestState := stateAfter is s.toDigestState
        inputs := rest
        position := s.position + is.length
        responses := s.responses ++ responsesTo is s.toDigestState } := by
  induction is generalizing s with
  | nil => subst hin; simp [stateAfter, responsesTo]; rfl
  | cons i is ih =>
    have hs := step_cmd (w := encode i) (rest := inputsOf is ++ rest) hin
    rw [hd i (by simp), exec_eq_answer] at hs
    rw [List.length_cons, run_succ hs, ih (fun j hj => hd j (by simp [hj])) rfl]
    simp [stateAfter, responsesTo, Nat.add_assoc, Nat.add_comm 1]

end Sys2Proof.Machine
end

