-- ==== Sys2Proof/Laws/Update.lean ====
section
/-! SUPPORT. The block loop of UPDATE (41_update.md R91): what it leaves, how it splits, and what it does not look at. -/

namespace Sys2Proof.Machine

/-- `q` passes take the first `16 q` bytes. -/
theorem absorbBlocks_rest : ∀ (q : Nat) (h : Word × Word) (buf : List Byte),
    (absorbBlocks q h buf).2 = buf.drop (16 * q)
  | 0, _, buf => by simp [absorbBlocks]
  | q + 1, _, buf => by
    rw [absorbBlocks, absorbBlocks_rest q, List.drop_drop]
    congr 1
    simp only [Config.blockBytes]
    omega

/-- Passes one after the other are one run of the loop. -/
theorem absorbBlocks_add : ∀ (q r : Nat) (h : Word × Word) (buf : List Byte),
    absorbBlocks (q + r) h buf = absorbBlocks r (absorbBlocks q h buf).1 (absorbBlocks q h buf).2
  | 0, r, h, buf => by simp [absorbBlocks]
  | q + 1, r, h, buf => by
    rw [Nat.add_right_comm, absorbBlocks, absorbBlocks_add q r, absorbBlocks]

/-- The loop looks only at the bytes of its blocks. -/
theorem absorbBlocks_append : ∀ (q : Nat) (h : Word × Word) (buf ext : List Byte), 16 * q ≤ buf.length →
    absorbBlocks q h (buf ++ ext) = ((absorbBlocks q h buf).1, (absorbBlocks q h buf).2 ++ ext)
  | 0, h, buf, ext, _ => by simp [absorbBlocks]
  | q + 1, h, buf, ext, hq => by
    have h16 : 16 ≤ buf.length := by omega
    have e0 : slice (buf ++ ext) 0 8 = slice buf 0 8 := by
      simp [slice, List.take_append_of_le_length (show 8 ≤ buf.length by omega)]
    have e1 : slice (buf ++ ext) 8 16 = slice buf 8 16 := by
      simp only [slice]
      rw [List.drop_append_of_le_length (by omega), List.take_append_of_le_length (by simp; omega)]
    rw [absorbBlocks, absorbBlocks, e0, e1,
      List.drop_append_of_le_length (by simp only [Config.blockBytes]; omega),
      absorbBlocks_append q _ _ ext (by simp [Config.blockBytes]; omega)]

/-- UPDATE leaves fewer than a block pending, whatever it was given (R131). -/
theorem absorb_pending_length (d : DigestState) (b : List Byte) :
    (d.absorb b).pending.length = (d.pending.length + b.length) % 16 := by
  simp only [DigestState.absorb, absorbBlocks_rest, List.length_drop, List.length_append, Config.blockBytes]
  omega

end Sys2Proof.Machine
end

