-- ==== Sys2Proof/Tests/Slice0.lean ====
section
/-! SUPPORT. The model's own tests: expected values from spec/95_test_vectors.md and from the examples and tables of the
rules named beside each; then, for each statement with hypotheses, states and operands that meet them. -/

namespace Sys2Proof.Tests

open Sys2Proof.Machine

/-! ### Helpers -/

/-- The next state of an outcome. -/
def nextOf : Result → Option State
  | .next t => some t
  | .fault _ => none
  | .refused _ => none

/-- The architectural state a command leaves. -/
def digestStateOf (r : Result) : Option DigestState := (nextOf r).map (·.toDigestState)

/-- The last response, in the serial form of R72. -/
def lastResponse (r : Result) : Option (List Byte) := (nextOf r).bind fun t => t.responses.getLast?.map serialOf

/-- An unfaulted machine in a given architectural state. -/
def machine (h1 h2 n : Word) (pending : List Byte) (seed : Seed) : State :=
  { State.reset with h1 := h1, h2 := h2, totalLength := n, pending := pending, seed := seed }

/-- The state of R81's example. -/
def midStream : State := machine 0x0123456789abcdef 5 35 [0xaa, 0xbb, 0xcc] 7

/-- The bytes `a, a+1, …`, `n` of them. -/
def counting (a n : Nat) : List Byte := (List.range n).map fun i => BitVec.ofNat 8 (a + i)

/-- The first 16 bytes of source vector S2. -/
def foxBlock0 : List Byte := [0x54, 0x68, 0x65, 0x20, 0x71, 0x75, 0x69, 0x63, 0x6b, 0x20, 0x62, 0x72, 0x6f, 0x77, 0x6e, 0x20]

/-- The second 16 bytes of source vector S2. -/
def foxBlock1 : List Byte := [0x66, 0x6f, 0x78, 0x20, 0x6a, 0x75, 0x6d, 0x70, 0x73, 0x20, 0x6f, 0x76, 0x65, 0x72, 0x20, 0x74]

/-- The tail of source vector S2. -/
def foxTail : List Byte := [0x68, 0x65, 0x20, 0x6c, 0x61, 0x7a, 0x79, 0x20, 0x64, 0x6f, 0x67]

/-! ### Well-formedness: each check refuses an ill-formed term -/

theorem test_wellFormed_update_17_bytes : (Instr.update (counting 0 17)).wellFormed = false := by decide

theorem test_wellFormed_illegal_len_16 : (Instr.illegalUpdateLen 16).wellFormed = false := by decide

theorem test_wellFormed_boundaries :
    (Instr.update (counting 0 16)).wellFormed = true ∧ (Instr.illegalUpdateLen 17).wellFormed = true := by decide

/-! ### Decoding: words written out from the encoding tables, one for each constructor (R61, R62, R72, 95 section 2.10) -/

theorem test_decode_new : decodeBytes [0x01, 0xef, 0xbe, 0xad, 0xde, 0, 0, 0, 0, 0, 0, 0, 0, 0, 0, 0, 0] =
    .ok (.new 0xdeadbeef, []) := by decide +kernel

theorem test_decode_new_ignored : decodeBytes [0xf9, 0x05, 0, 0, 0, 0xff, 0xff, 0xff, 0xff, 0xff, 0xff, 0xff, 0xff, 0xff,
    0xff, 0xff, 0xff] = .ok (.new 5, []) := by decide +kernel

theorem test_decode_reset : decodeBytes [0x02, 0, 0, 0, 0, 0, 0, 0, 0, 0, 0, 0, 0, 0, 0, 0, 0] = .ok (.reset, []) := by
  decide +kernel

theorem test_decode_update_16 : decodeBytes (0x83 :: foxBlock0) = .ok (.update foxBlock0, []) := by decide +kernel

theorem test_decode_update_short : decodeBytes [0x13, 0x68, 0x69, 0xee, 0xee, 0xee, 0xee, 0xee, 0xee, 0xee, 0xee, 0xee, 0xee,
    0xee, 0xee, 0xee, 0xee] = .ok (.update [0x68, 0x69], []) := by decide +kernel

theorem test_decode_finalize : decodeBytes [0x4c, 0x77, 0x77, 0x77, 0x77, 0x77, 0x77, 0x77, 0x77, 0x77, 0x77, 0x77, 0x77, 0x77,
    0x77, 0x77, 0x77, 0x05] = .ok (.finalize, [0x05]) := by decide +kernel

theorem test_decode_digestLength : decode 0x05 = .digestLength := by decide

theorem test_decode_op0 : decode 0x08 = .illegalOp0 ∧ decode 0 = .illegalOp0 := by decide

theorem test_decode_op6 : decode 0x06 = .illegalOp6 ∧ decode 0xfe = .illegalOp6 := by decide

theorem test_decode_op7 : decode 0x07 = .illegalOp7 ∧ decode 0xff = .illegalOp7 := by decide

theorem test_decode_update_len : decode 0x8b = .illegalUpdateLen 17 ∧ decode 0x93 = .illegalUpdateLen 18 ∧
    decode 0xa3 = .illegalUpdateLen 20 ∧ decode 0xc3 = .illegalUpdateLen 24 ∧ decode 0xfb = .illegalUpdateLen 31 := by decide

theorem test_decode_short_bytes : decodeBytes [0x01, 0x02] = .error (.tooShort 2) := by decide

/-- The canonical words of programs P2, P5 (95 section 3). -/
theorem test_encode_words :
    serialOf (encode (.update [0x68, 0x65, 0x6c, 0x6c])) = [0x23, 0x68, 0x65, 0x6c, 0x6c, 0, 0, 0, 0, 0, 0, 0, 0, 0, 0, 0, 0] ∧
      serialOf (encode (.update foxTail)) = 0x5b :: (foxTail ++ [0, 0, 0, 0, 0]) ∧
      serialOf (encode (.new 0xdeadbeef)) = [0x01, 0xef, 0xbe, 0xad, 0xde, 0, 0, 0, 0, 0, 0, 0, 0, 0, 0, 0, 0] := by
  decide +kernel

/-! ### Arithmetic and mix functions: the tables of 43_mix_functions.md and 95 sections 2.1, 2.2 -/

theorem test_rotl64 : rotl64 0x0123456789abcdef 27 = 0x3c4d5e6f78091a2b ∧ rotl64 0x0123456789abcdef 31 = 0xc4d5e6f78091a2b3 ∧
    rotl64 0x0123456789abcdef 33 = 0x13579bde02468acf ∧ rotl64 0x8000000000000000 33 = 0x0000000100000000 := by decide

theorem test_arithmetic_corners : add64 0xffffffffffffffff 1 = 0 ∧ mul64 0xffffffffffffffff C1 = 0x783c846eeebdac2b ∧
    mul64 2 C1 = 0x0f86f7222284a7aa ∧ shr64 0x8000000000000000 33 = 0x40000000 := by decide

theorem test_le64 : le64 [0x68, 0x65, 0x6c, 0x6c] = 0x6c6c6568 ∧ le64 [0x80] = 0x80 ∧ le64 [] = 0 ∧
    le64 (counting 0 8) = 0x0706050403020100 ∧
    le64Bytes 0x629942693e10f867 = [0x67, 0xf8, 0x10, 0x3e, 0x69, 0x42, 0x99, 0x62] := by decide

theorem test_mixK1 : mixK1 0x0123456789abcdef = 0xe7d7c9c5f3d28bf1 ∧ mixK1 0x6c6c6568 = 0xcebd64d8db31fd75 ∧
    mixK1 0xffffffffffffffff = 0x11cc7f70ecdb6e49 := by decide

theorem test_mixK2 : mixK2 0x0123456789abcdef = 0x839e380db8a75867 ∧ mixK2 0x0f0e0d0c0b0a0908 = 0xc541f873a7aec42d ∧
    mixK2 0x8000000000000000 = 0x114253d500000000 := by decide

theorem test_blockMix : blockMix (0, 0) 0 0 = (0x52dce729, 0x1d699de82) ∧
    blockMix (0x0123456789abcdef, 0xfedcba9876543210) 0x1111111111111111 0x2222222222222222 =
      (0x7d140475d27be898, 0x24d9f7aefe1d6392) := by decide

theorem test_fmix64 : fmix64 1 = 0xb456bcfc34c2cb2c ∧ fmix64 0x0123456789abcdef = 0x87cbfbfe89022cea ∧
    fmix64 0x8000000000000000 = 0x8f780810af31a493 := by decide

theorem test_tailWords : tailWords (counting 0x80 1) = (0x80, 0) ∧ tailWords (counting 0x80 8) = (0x8786858483828180, 0) ∧
    tailWords (counting 0x80 9) = (0x8786858483828180, 0x88) ∧
    tailWords (counting 0x80 15) = (0x8786858483828180, 0x008e8d8c8b8a8988) := by decide

theorem test_tailMix : tailMix (0xef7ef36e84b36d66, 0x20112c4dac59411d) foxTail = (0x515233ebf2a47c15, 0x106ea6d665619948) := by
  decide

/-! ### Digests: the source's vectors S1, S2 (95 section 1.1) and derived ones (sections 2.4, 2.7, 2.8) -/

theorem test_digest_S1 : digestOf 0 [0x68, 0x65, 0x6c, 0x6c] = (0x629942693e10f867, 0x92db0b82baeb5347) := by decide +kernel

theorem test_digest_S2 : digestOf 0 (foxBlock0 ++ foxBlock1 ++ foxTail) = (0xe34bbc7bbc071b6c, 0x7a433ca9c49a9347) := by
  decide +kernel

theorem test_digest_high_bytes : digestOf 0 (counting 0x80 15) = (0xbb937a52524704b9, 0xc1a40099b8dce921) := by decide +kernel

theorem test_digest_seed_top_bit :
    digestOf 0x80000000 [0x68, 0x65, 0x6c, 0x6c] = (0xd8c077be38a869d3, 0x7f29762cb01a361f) := by decide +kernel

theorem test_digest_48_bytes : digestOf 0 (counting 0 48) = (0x4f72bc640c7827f4, 0x29eae183a20480b6) := by decide +kernel

/-- R106's collision across seeds. -/
theorem test_digest_collision : digestBytesOf 1 [] = digestBytesOf 0 [0] := by decide +kernel

theorem test_sign_extension_of_the_seed : widenSeedAs .sign 0x80000000 = 0xffffffff80000000 ∧
    widenSeed 0x80000000 = 0x0000000080000000 := by decide

/-! ### The commands, one step each -/

/-- 95 section 2.9, second row. -/
theorem test_new_mid_stream : digestStateOf (exec (.new 0) midStream) = some DigestState.reset := by decide

/-- R80's example. -/
theorem test_new_response : digestStateOf (exec (.new 0xdeadbeef) State.reset) =
      some { h1 := 0xdeadbeef, h2 := 0xdeadbeef, totalLength := 0, pending := [], seed := 0xdeadbeef, fcause := 0 } ∧
    lastResponse (exec (.new 0xdeadbeef) State.reset) = some (List.replicate 17 0) := by decide

/-- R81's example. -/
theorem test_reset_mid_stream : digestStateOf (exec .reset midStream) =
    some { h1 := 7, h2 := 7, totalLength := 0, pending := [], seed := 7, fcause := 0 } := by decide

/-- P2, command 6. -/
theorem test_digestLength : digestStateOf (exec .digestLength midStream) = some midStream.toDigestState ∧
    lastResponse (exec .digestLength midStream) = some (0 :: 0x10 :: List.replicate 15 0) := by decide

/-- P3, command 4: 13 bytes on 5 pending ones. -/
theorem test_update_completes_a_block :
    digestStateOf (exec (.update [0x75, 0x69, 0x63, 0x6b, 0x20, 0x62, 0x72, 0x6f, 0x77, 0x6e, 0x20, 0x66, 0x6f])
      (machine 0 0 5 [0x54, 0x68, 0x65, 0x20, 0x71] 0)) =
    some { h1 := 0x065f54070009580c, h2 := 0x1185bfe0bc383732, totalLength := 18, pending := [0x66, 0x6f], seed := 0, fcause := 0 } := by
  decide +kernel

/-- 95 section 2.3, the third row of the counter's wrap. -/
theorem test_update_length_wraps :
    digestStateOf (exec (.update (counting 0 14)) (machine 1 2 0xfffffffffffffff3 [0x61, 0x62, 0x63] 0)) =
    some { h1 := 0xbf4c0eef2eb6d847, h2 := 0xa7877c25aad528a5, totalLength := 1, pending := [0x0d], seed := 0, fcause := 0 } := by
  decide +kernel

/-- P2, command 5. -/
theorem test_finalize_digest :
    lastResponse (exec .finalize (machine 0xef7ef36e84b36d66 0x20112c4dac59411d 43 foxTail 0)) =
      some [0x00, 0x6c, 0x1b, 0x07, 0xbc, 0x7b, 0xbc, 0x4b, 0xe3, 0x47, 0x93, 0x9a, 0xc4, 0xa9, 0x3c, 0x43, 0x7a] ∧
    digestStateOf (exec .finalize (machine 0xef7ef36e84b36d66 0x20112c4dac59411d 43 foxTail 0)) = some DigestState.reset := by
  decide +kernel

/-- 95 section 2.10: FINALIZE that finds 16 bytes pending. -/
theorem test_finalize_broken_tail :
    digestStateOf (exec .finalize (machine 0 0 16 (counting 0 16) 0)) =
      some { (machine 0 0 16 (counting 0 16) 0).toDigestState with fcause := 1 } ∧
    lastResponse (exec .finalize (machine 0 0 16 (counting 0 16) 0)) = some (1 :: List.replicate 16 0) := by decide +kernel

/-- P4, command 2. -/
theorem test_illegalOp7 :
    digestStateOf (exec .illegalOp7 midStream) = some { midStream.toDigestState with fcause := 2 } ∧
    lastResponse (exec .illegalOp7 midStream) = some (2 :: List.replicate 16 0) := by decide

theorem test_illegalOp0 :
    digestStateOf (exec .illegalOp0 midStream) = some { midStream.toDigestState with fcause := 2 } := by decide

theorem test_illegalOp6 :
    digestStateOf (exec .illegalOp6 midStream) = some { midStream.toDigestState with fcause := 2 } := by decide

theorem test_illegalUpdateLen :
    digestStateOf (exec (.illegalUpdateLen 17) midStream) = some { midStream.toDigestState with fcause := 2 } := by decide

/-- P4, command 4: NEW does not clear the latch. -/
theorem test_new_on_faulted_engine :
    digestStateOf (exec (.new 0) { midStream with fcause := 2 }) = some { midStream.toDigestState with fcause := 2 } ∧
    lastResponse (exec (.new 0) { midStream with fcause := 2 }) = some (2 :: List.replicate 16 0) := by decide

/-- P6: hardware reset in mid-stream; no response, the position stays. -/
theorem test_step_rst :
    nextOf (step { midStream with fcause := 2, position := 2, inputs := [.rst, .cmd 4] }) =
      some { State.reset with position := 2, inputs := [.cmd 4] } := by decide

/-- The first instruction after reset, placed as the host places it. -/
theorem test_step_withFetchWord :
    digestStateOf (step (State.reset.withFetchWord 136 0x6c6c656823)) =
      some { DigestState.reset with totalLength := 4, pending := [0x68, 0x65, 0x6c, 0x6c] } ∧
    decodeTableWord 136 0x83 = some (.update (List.replicate 16 0)) := by decide +kernel

/-! ### Hypotheses that can be met, at the boundaries of each clause -/

/-- A machine about to issue a word. -/
def issuing (w : Cmd) : State := { midStream with inputs := [.cmd w, .rst] }

/-- The same, faulted. -/
def faultedIssuing (w : Cmd) : State := { issuing w with fcause := 1 }

theorem witness_DecodeFollowsTheProcedure :
    (0xf9 : Cmd).extractLsb' 0 3 = 1 ∧ (0x02 : Cmd).extractLsb' 0 3 = 2 ∧
      ((0x03 : Cmd).extractLsb' 0 3 = 3 ∧ ((0x03 : Cmd).extractLsb' 3 5).toNat ≤ 16) ∧
      ((0x83 : Cmd).extractLsb' 0 3 = 3 ∧ ((0x83 : Cmd).extractLsb' 3 5).toNat = 16) ∧
      ((0x8b : Cmd).extractLsb' 0 3 = 3 ∧ ((0x8b : Cmd).extractLsb' 3 5).toNat = 17) ∧
      (0x4c : Cmd).extractLsb' 0 3 = 4 ∧ (0x05 : Cmd).extractLsb' 0 3 = 5 ∧ (0x08 : Cmd).extractLsb' 0 3 = 0 ∧
      (0xfe : Cmd).extractLsb' 0 3 = 6 ∧ (0xff : Cmd).extractLsb' 0 3 = 7 := by decide

theorem witness_DecodeOfEncodeIsTheInstruction :
    (Instr.update (counting 0xf0 16)).wellFormed = true ∧ (Instr.update []).wellFormed = true ∧
      (Instr.illegalUpdateLen 17).wellFormed = true ∧ (Instr.illegalUpdateLen 31).wellFormed = true ∧
      (Instr.new 0xffffffff).wellFormed = true := by decide

theorem witness_CanonicalWordsAsNumbers : (counting 0 16).length ≤ 16 ∧ ([] : List Byte).length ≤ 16 := by decide

theorem witness_IllegalWordsExactly :
    (issuing 0x8b).fcause = 0 ∧ (issuing 0x8b).inputs = [.cmd 0x8b, .rst] ∧ (decode 0x8b).isIllegal = true ∧
      (decode 0xfb).isIllegal = true ∧ (decode 0).isIllegal = true := by decide

theorem witness_IgnoredFieldsAreIgnored :
    ((0x05f9 : Cmd).extractLsb' 0 3 = (0xff0000000501 : Cmd).extractLsb' 0 3 ∧
      (0x05f9 : Cmd).extractLsb' 8 32 = (0xff0000000501 : Cmd).extractLsb' 8 32) ∧
    ((0xeeee696813 : Cmd).extractLsb' 0 3 = (0x696813 : Cmd).extractLsb' 0 3 ∧
      (0xeeee696813 : Cmd).extractLsb' 3 5 = (0x696813 : Cmd).extractLsb' 3 5 ∧
      ∀ i < ((0xeeee696813 : Cmd).extractLsb' 3 5).toNat,
        (0xeeee696813 : Cmd).extractLsb' (8 * i + 8) 8 = (0x696813 : Cmd).extractLsb' (8 * i + 8) 8) ∧
    (0x774c : Cmd).extractLsb' 0 3 = (0x04 : Cmd).extractLsb' 0 3 ∧ ([] : List Byte).length ≤ 15 := by decide

theorem witness_ByteDecodingTakesOneWord : (counting 0 16).length < 17 ∧ ([] : List Byte).length < 17 := by decide

theorem witness_ResponseCarriesTheLatch :
    (issuing 0x04).inputs = [.cmd 0x04, .rst] ∧ (issuing 0x04).fcause ≠ 3 ∧ (faultedIssuing 0x04).fcause ≠ 3 := by decide

theorem witness_RotateMovesEveryBit : (1 ≤ 1 ∧ 1 ≤ 63) ∧ (1 ≤ 63 ∧ 63 ≤ 63) ∧ 63 < 64 ∧ (63 + 1) % 64 = 0 := by decide

theorem witness_LittleEndianWords : (counting 0 8).length = 8 ∧ ([] : List Byte).length ≤ 8 := by decide

theorem witness_TailWordsByShiftedOr :
    (1 ≤ (counting 0 1).length ∧ (counting 0 1).length ≤ 15) ∧ (1 ≤ (counting 0 8).length ∧ (counting 0 8).length ≤ 15) ∧
      (1 ≤ (counting 0 9).length ∧ (counting 0 9).length ≤ 15) ∧ 1 ≤ (counting 0 15).length ∧ (counting 0 15).length ≤ 15 := by
  decide

theorem witness_TailMixIsKMixAndXor :
    (1 ≤ (List.replicate 15 (0 : Byte)).length ∧ (List.replicate 15 (0 : Byte)).length ≤ 15 ∧
      ∀ x ∈ List.replicate 15 (0 : Byte), x = 0) ∧ (1 ≤ (counting 1 8).length ∧ (counting 1 8).length ≤ 8) := by decide

theorem witness_WordArithmeticWraps : 0 < 64 ∧ 33 < 64 ∧ 63 < 64 := by decide

theorem witness_SeedIsZeroExtended : (0x7fffffff : Seed).toNat < 2 ^ 31 ∧ 2 ^ 31 ≤ (0x80000000 : Seed).toNat := by decide

/-- An unfaulted machine, for the completion of NEW, RESET, DIGEST_LENGTH and the illegal words, and for the laws. -/
theorem witness_unfaulted : midStream.fcause = 0 ∧ State.reset.fcause = 0 := by decide

theorem witness_UpdateAppendsABeat :
    (midStream.fcause = 0 ∧ midStream.pending.length ≤ 15 ∧ (counting 0 12).length ≤ 16 ∧
      ¬ 16 ≤ (midStream.pending ++ counting 0 12).length) ∧
    (midStream.pending ++ counting 0 13).length = 16 ∧
    ((machine 0 0 15 (counting 0 15) 0).pending.length ≤ 15 ∧ (counting 15 16).length ≤ 16 ∧
      16 ≤ ((machine 0 0 15 (counting 0 15) 0).pending ++ counting 15 16).length) := by decide

/-- FINALIZE completes with no, one and fifteen bytes pending; its ten intermediate words are given by their equations. -/
theorem witness_FinalizeAnswersTheDigestAndResets :
    (State.reset.fcause = 0 ∧ State.reset.pending.length < 16) ∧
    (midStream.fcause = 0 ∧ midStream.pending.length < 16) ∧
    ((machine 0 0 15 (counting 0 15) 0).fcause = 0 ∧ (machine 0 0 15 (counting 0 15) 0).pending.length < 16) ∧
    ∃ a1 b1 a2 b2 a3 b3 a4 b4 a5 b5 : Word,
      a1 = (if 1 ≤ midStream.pending.length then midStream.h1 ^^^ mixK1 (tailWords midStream.pending).1 else midStream.h1) ∧
      b1 = (if 1 ≤ midStream.pending.length then midStream.h2 ^^^ mixK2 (tailWords midStream.pending).2 else midStream.h2) ∧
      a2 = a1 ^^^ midStream.totalLength ∧ b2 = b1 ^^^ midStream.totalLength ∧ a3 = a2 + b2 ∧ b3 = b2 + a3 ∧
      a4 = fmix64 a3 ∧ b4 = fmix64 b3 ∧ a5 = a4 + b4 ∧ b5 = b4 + a5 :=
  ⟨by decide, by decide, by decide, _, _, _, _, _, _, _, _, _, _, rfl, rfl, rfl, rfl, rfl, rfl, rfl, rfl, rfl, rfl⟩

theorem witness_ResetValuesOfEveryItem :
    { midStream with inputs := [.rst] }.inputs = .rst :: [] ∧ midStream.fcause = 0 ∧ midStream.pending.length < 16 := by decide

theorem witness_CommandsWriteOnlyTheirColumns :
    (nextOf (exec .reset midStream)).isSome = true ∧ (nextOf (exec .finalize midStream)).isSome = true ∧
      midStream.pending.length < 16 ∧ (nextOf (exec .illegalOp0 midStream)).isSome = true ∧
      (nextOf (exec (.new 1) (faultedIssuing 1))).isSome = true ∧ (faultedIssuing 1).fcause ≠ 0 := by decide +kernel

theorem witness_CommandsReadOnlyTheirColumns :
    midStream.fcause = 0 ∧ (machine 1 2 3 [4, 5, 6] 7).fcause = 0 ∧ (machine 1 2 3 [4, 5, 6] 7).seed = midStream.seed ∧
      (machine 1 2 3 [4, 5, 6] 7).toDigestState ≠ midStream.toDigestState ∧
      (nextOf (exec (.update (counting 0 16)) midStream)).isSome = true ∧ Instr.illegalOp6.isIllegal = true := by decide +kernel

theorem witness_ReuseAfterFinalize : midStream.fcause = 0 ∧ midStream.pending.length < 16 := by decide

theorem witness_BeatCaseByCase :
    midStream.fcause = 0 ∧ midStream.toDigestState.Inv ∧ midStream.pending.length + (counting 0 12).length ≤ 15 ∧
      16 ≤ midStream.pending.length + (counting 0 13).length ∧ (counting 0 13).length ≤ 16 ∧
      (machine 0 0 15 (counting 0 15) 0).toDigestState.Inv ∧
      16 ≤ (machine 0 0 15 (counting 0 15) 0).pending.length + (counting 0 16).length := by decide

theorem witness_EmptyUpdateChangesNothing :
    midStream.fcause = 0 ∧ midStream.pending.length < 16 ∧ (machine 0 0 15 (counting 0 15) 0).pending.length < 16 := by decide

theorem witness_ChunkingInvariance : midStream.pending.length < 16 := by decide

theorem witness_BeatsEqualOneLongUpdate :
    let chunks : List (List Byte) := [counting 0 5, [], counting 5 16]
    let s : State := { midStream with inputs := inputsOf (chunks.map .update) ++ [.cmd 4] }
    s.fcause = 0 ∧ s.pending.length < 16 ∧ (∀ c ∈ chunks, c.length ≤ 16) ∧
      s.inputs = inputsOf (chunks.map .update) ++ [.cmd 4] := by
  refine ⟨by decide, by decide, by decide, rfl⟩

theorem witness_StreamLengths : (counting 0 17).length < 2 ^ 64 := by decide

/-- The state of a stream of 19 bytes under seed 7, with a command and with hardware reset at the head. -/
theorem witness_StepFollowsTheStream :
    let s : State := { State.reset with toDigestState := streamState 7 (counting 0 19), inputs := [.cmd 0x04] }
    s.inputs = .cmd 0x04 :: [] ∧ s.toDigestState = streamState 7 (counting 0 19) ∧ (decode 0x04).isIllegal = false ∧
      (decode 0x07).isIllegal = true ∧ { s with inputs := [.rst] }.inputs = .rst :: [] := by
  refine ⟨rfl, rfl, by decide, by decide, rfl⟩

/-- An unfaulted state reached by NEW, UPDATE, hardware reset and UPDATE. -/
theorem witness_ReachableStatesAreStreamStates :
    let L : List Input := [.cmd 0x0701, .cmd 0x410b, .rst, .cmd 0x420b]
    4 ≤ L.length ∧ ∃ t, Host.Core.run core 4 { State.reset with inputs := L } = .next t ∧ t.fcause = 0 :=
  ⟨by decide, _, rfl, by decide⟩

theorem witness_FinalizeAnswersDigestOfTheStream :
    ({ State.reset with toDigestState := streamState 7 (counting 0 19) } : State).toDigestState = streamState 7 (counting 0 19) :=
  rfl

theorem witness_WholeBlocksHaveNoTail :
    ([] : List Byte).length % 16 = 0 ∧ (counting 0 16).length = 16 ∧ (counting 0 32).length % 16 = 0 := by decide

theorem witness_HashAnswersTheDigest :
    let s : State := { midStream with inputs := inputsOf (hashOf 9 (counting 0 33)) ++ [.rst] }
    s.fcause = 0 ∧ s.inputs = inputsOf (hashOf 9 (counting 0 33)) ++ [.rst] := ⟨by decide, rfl⟩

theorem witness_BrokenTailLatches :
    (machine 0 0 16 (counting 0 16) 0).fcause = 0 ∧ 16 ≤ (machine 0 0 16 (counting 0 16) 0).pending.length := by decide

theorem witness_ChecksInOrder :
    (issuing 0x07).inputs = [.cmd 0x07, .rst] ∧ (issuing 0x07).fcause = 0 ∧ (faultedIssuing 0x07).fcause ≠ 0 ∧
      (faultedIssuing 0x07).inputs = [.cmd 0x07, .rst] ∧ (decode 0x07).isIllegal = true ∧ (decode 0x04).isIllegal = false := by
  decide

theorem witness_FaultsHaveTwoCausesAndArePrecise :
    (nextOf (exec .finalize (machine 0 0 16 (counting 0 16) 0))).isSome = true ∧
      (nextOf (exec .illegalOp6 midStream)).isSome = true ∧ (nextOf (exec .reset midStream)).isSome = true ∧
      midStream.fcause = 0 := by decide +kernel

theorem witness_OnlyHardwareResetClearsTheLatch :
    (nextOf (step (faultedIssuing 0x02))).isSome = true ∧ (faultedIssuing 0x02).fcause ≠ 0 ∧
      (nextOf (step { faultedIssuing 0x02 with inputs := [.rst] })).isSome = true := by decide +kernel

theorem witness_SeedWrittenOnlyByNewAndHardwareReset :
    (nextOf (step (issuing 0x0901))).map (·.seed) = some 9 ∧ (issuing 0x0901).seed = 7 ∧
      (nextOf (step { midStream with inputs := [.rst] })).map (·.seed) = some 0 := by decide +kernel

theorem witness_FaultedEngineStaysFaulted :
    let s : State := { faultedIssuing 0 with inputs := [(0x01 : Cmd), 0x02, 0x07].map .cmd ++ [.rst] }
    s.fcause ≠ 0 ∧ s.inputs = [(0x01 : Cmd), 0x02, 0x07].map .cmd ++ [.rst] := ⟨by decide, rfl⟩

theorem witness_BrokenTailIsUnreachable :
    let s : State := { midStream with inputs := [.cmd 0x04] }
    s.Inv ∧ s.fcause ≠ 1 ∧ ∃ t, Host.Core.run core 1 s = .next t :=
  ⟨⟨by decide, rfl, by intro r hr; cases hr⟩, by decide, _, rfl⟩

theorem witness_StepRunsTheDecodedInstruction : (issuing 0x83).inputs = .cmd 0x83 :: [.rst] := rfl

theorem witness_IdleEngineHoldsItsState : midStream.inputs = [] := rfl

theorem witness_HardwareResetSetsEveryItem : { faultedIssuing 0 with inputs := [.rst, .cmd 1] }.inputs = .rst :: [.cmd 1] := rfl

theorem witness_OneResponsePerCommand :
    (issuing 0x05).inputs = .cmd 0x05 :: [.rst] ∧ { midStream with inputs := [.rst] }.inputs = .rst :: [] ∧
      midStream.inputs = [] := ⟨rfl, rfl, rfl⟩

theorem witness_StepKeepsTheInvariant :
    (issuing 0x83).Inv ∧ (nextOf (step (issuing 0x83))).isSome = true ∧
      ({ midStream with position := 1, responses := [packRsp 0 16], inputs := [.cmd 0x07] } : State).Inv := by
  refine ⟨⟨by decide, rfl, by intro r hr; cases hr⟩, by decide +kernel, by decide, rfl, ?_⟩
  intro r hr
  obtain rfl := List.mem_singleton.mp hr
  decide

end Sys2Proof.Tests
end

section
/-! PROOF. The widening of the seed (10_state.md R24) and the answer of every step (00_scope.md R13, 10_state.md R30). -/

namespace Sys2Proof.Machine

/-! ### The seed (R24, 90_conflicts.md C1) -/

@[simp] theorem widenSeed_eq_setWidth (x : Seed) : widenSeed x = x.setWidth 64 := rfl

/-- Bits 63:32 lie beyond the seed's 32 bits. -/
theorem widenSeed_high (x : Seed) : (widenSeed x).extractLsb' 32 32 = 0 := by
  ext i hi
  simp

theorem widenSeed_low (x : Seed) : (widenSeed x).extractLsb' 0 32 = x := by
  ext i hi
  simp [hi, show i < 64 by omega]

/-- The two readings of C1 are one below `2^31`: there the seed's sign bit is 0. -/
theorem widenSeedAs_sign_of_lt {x : Seed} (h : x.toNat < 2 ^ 31) : widenSeedAs .sign x = widenSeed x := by
  have hmsb : x.msb = false := BitVec.msb_eq_false_iff_two_mul_lt.mpr (by omega)
  exact BitVec.signExtend_eq_setWidth_of_msb_false hmsb

/-- Where the sign bit is 1 the losing reading of C1 fills the upper half with ones. -/
theorem widenSeedAs_sign_high {x : Seed} (h : 2 ^ 31 ≤ x.toNat) :
    (widenSeedAs .sign x).extractLsb' 32 32 = BitVec.allOnes 32 := by
  have hmsb : x.msb = true := BitVec.msb_eq_true_iff_two_mul_ge.mpr (by omega)
  ext i hi
  simp [widenSeedAs, BitVec.getElem_signExtend, hmsb, show 32 + i < 64 by omega, -BitVec.reduceAllOnes]

/-- Settles O21: the chosen reading half by half, the losing one by the seed's sign bit. -/
theorem seedIsZeroExtended : Obligations.SeedIsZeroExtended :=
  ⟨fun x => ⟨widenSeed_eq_setWidth x, widenSeed_high x, widenSeed_low x⟩, fun _ => widenSeedAs_sign_of_lt,
    fun _ => widenSeedAs_sign_high⟩

/-! ### Every step answers (R13, R30, R60, R163) -/

/-- With nothing to execute the engine holds its state. -/
theorem step_idle {s : State} (h : s.inputs = []) : step s = .next s := by simp [step, h]

/-- Hardware reset at the head of the host's list is taken alone. -/
theorem step_rst {s : State} {rest : List Input} (h : s.inputs = .rst :: rest) :
    step s = .next (s.hardwareReset rest) := by simp [step, h]

/-- A command word is taken from the list, moves the position by 1 and is answered by one response. -/
theorem step_cmd_answers {s : State} {w : Cmd} {rest : List Input} (h : s.inputs = .cmd w :: rest) :
    ∃ d x, step s = .next (((s.acceptCmd rest).withDigest d).respond x) :=
  step_cmd h ▸ exec_answers (decode w) (s.acceptCmd rest)

/-- Settles O57: by the head of the host's list, each of its three cases having one next state. -/
theorem oneResponsePerCommand : Obligations.OneResponsePerCommand := by
  intro s
  cases hin : s.inputs with
  | nil => exact ⟨s, step_idle hin, by simp, by simp [hin], fun _ => rfl⟩
  | cons i rest =>
    cases i with
    | rst => exact ⟨_, step_rst hin, by simp, by simp, by simp⟩
    | cmd w =>
      obtain ⟨d, x, hstep⟩ := step_cmd_answers hin
      exact ⟨_, hstep, by simp, by simp, by simp⟩

end Sys2Proof.Machine
end

section
/-! PROOF. The state as a function of the seed and the stream (10_state.md R26 to R28), what a command reads and writes
(R32, R34), and what holds along every run (R24, R25, R131). -/

namespace Sys2Proof.Machine

/-! ### UPDATE's block loop (41_update.md R90, R91, R95) -/

/-- With fewer than 16 bytes in the buffer no block is cut. -/
theorem absorb_short {d : DigestState} {b : List Byte} (h : (d.pending ++ b).length < 16) :
    d.absorb b = { d with pending := d.pending ++ b, totalLength := d.totalLength + BitVec.ofNat 64 b.length } := by
  simp only [DigestState.absorb, Config.blockBytes, Nat.div_eq_of_lt h, absorbBlocks, add64]

/-- With 16 to 31 bytes in the buffer its first 16 are one block. -/
theorem absorb_one_block {d : DigestState} {b : List Byte} (h : 16 ≤ (d.pending ++ b).length)
    (h' : (d.pending ++ b).length < 32) :
    d.absorb b =
      { d with
        h1 := (blockMix (d.h1, d.h2) (le64 (slice (d.pending ++ b) 0 8)) (le64 (slice (d.pending ++ b) 8 16))).1
        h2 := (blockMix (d.h1, d.h2) (le64 (slice (d.pending ++ b) 0 8)) (le64 (slice (d.pending ++ b) 8 16))).2
        pending := slice (d.pending ++ b) 16 (d.pending ++ b).length
        totalLength := d.totalLength + BitVec.ofNat 64 b.length } := by
  have hq : (d.pending ++ b).length / 16 = 1 := by omega
  have hrest : (d.pending ++ b).drop 16 = slice (d.pending ++ b) 16 (d.pending ++ b).length := by
    simp [slice, List.take_of_length_le]
  simp only [DigestState.absorb, Config.blockBytes, hq, absorbBlocks, add64, hrest]

/-- No bytes on a short buffer leave the state alone (R94). -/
theorem absorb_nil {d : DigestState} (h : d.pending.length < 16) : d.absorb [] = d := by
  rw [absorb_short (by simpa using h)]
  simp

/-- Chunking (R95): the loop over the second chunk goes on where the loop over the first stopped. -/
theorem absorb_absorb (d : DigestState) (x y : List Byte) : (d.absorb x).absorb y = d.absorb (x ++ y) := by
  set buf := d.pending ++ x with hbuf
  set q := buf.length / 16 with hq
  set h := absorbBlocks q (d.h1, d.h2) buf with hh
  have hrest : h.2 = buf.drop (16 * q) := absorbBlocks_rest q _ buf
  have hcount : (buf ++ y).length / 16 = q + (h.2 ++ y).length / 16 := by
    simp only [hrest, List.length_append, List.length_drop]
    omega
  have hloop : absorbBlocks ((buf ++ y).length / 16) (d.h1, d.h2) (buf ++ y) =
      absorbBlocks ((h.2 ++ y).length / 16) h.1 (h.2 ++ y) := by
    rw [hcount, absorbBlocks_add, absorbBlocks_append q _ buf y (by omega)]
  have hlen : add64 (add64 d.totalLength (BitVec.ofNat 64 x.length)) (BitVec.ofNat 64 y.length) =
      add64 d.totalLength (BitVec.ofNat 64 (x ++ y).length) := by
    rw [List.length_append, BitVec.ofNat_add]
    exact BitVec.add_assoc ..
  simp only [DigestState.absorb, Config.blockBytes, ← List.append_assoc, ← hbuf, ← hq, ← hh, hloop, hlen]

/-! ### The state of a stream (R27, R28) -/

/-- R28's `Fold(q)` is the block loop over the stream, from the widened seed. -/
theorem absorbBlocks_eq_foldBlocks (seed : Seed) (S : List Byte) (q : Nat) :
    absorbBlocks q (seed.setWidth 64, seed.setWidth 64) S = (foldBlocks seed S q, S.drop (16 * q)) := by
  induction q with
  | zero => simp [absorbBlocks, foldBlocks]
  | succ q ih =>
    rw [absorbBlocks_add, ih]
    simp [absorbBlocks, foldBlocks, slice, Config.blockBytes, Nat.mul_succ, List.drop_drop]

/-- The bytes of a stream after its last whole block. -/
theorem streamState_pending (seed : Seed) (S : List Byte) :
    (streamState seed S).pending = S.drop (16 * (S.length / 16)) := by
  simp [streamState, slice, List.take_of_length_le]

@[simp] theorem streamState_fcause (seed : Seed) (S : List Byte) : (streamState seed S).fcause = 0 := rfl

@[simp] theorem streamState_seed (seed : Seed) (S : List Byte) : (streamState seed S).seed = seed := rfl

@[simp] theorem streamState_totalLength (seed : Seed) (S : List Byte) :
    (streamState seed S).totalLength = BitVec.ofNat 64 S.length := rfl

theorem streamState_pending_length (seed : Seed) (S : List Byte) :
    (streamState seed S).pending.length = S.length % 16 := by
  rw [streamState_pending, List.length_drop]
  omega

theorem streamState_pending_lt (seed : Seed) (S : List Byte) : (streamState seed S).pending.length < 16 := by
  rw [streamState_pending_length]
  omega

/-- The reset of the data state of an unfaulted engine gives the empty stream under the stored seed. -/
theorem clearStream_eq_streamState {d : DigestState} (h : d.fcause = 0) : d.clearStream = streamState d.seed [] := by
  rw [DigestState.clearStream, streamState, h]
  rfl

/-- Hardware reset gives the empty stream under seed 0 (R34). -/
theorem reset_eq_streamState : DigestState.reset = streamState 0 [] := rfl

/-- The state of a stream is one update of the whole stream from the empty one. -/
theorem streamState_eq_absorb (seed : Seed) (S : List Byte) : streamState seed S = (streamState seed []).absorb S := by
  have hloop := absorbBlocks_eq_foldBlocks seed S (S.length / 16)
  have hpend : (streamState seed []).pending = [] := rfl
  have hacc : ((streamState seed []).h1, (streamState seed []).h2) = (seed.setWidth 64, seed.setWidth 64) := rfl
  simp only [DigestState.absorb, hpend, hacc, List.nil_append, Config.blockBytes, hloop, ← streamState_pending seed]
  simp [streamState, add64]

/-- UPDATE appends to the stream (R26 item 2). -/
theorem absorb_streamState (seed : Seed) (S b : List Byte) :
    (streamState seed S).absorb b = streamState seed (S ++ b) := by
  rw [streamState_eq_absorb, absorb_absorb, ← streamState_eq_absorb]

/-! ### What a command writes (R32) -/

/-- The four illegal instructions have one effect, fault entry. -/
theorem effect_illegal {i : Instr} (h : i.isIllegal = true) (d : DigestState) :
    effect i d = (d.latch .illegalCommand, 0) := by
  cases i with
  | illegalOp0 | illegalOp6 | illegalOp7 | illegalUpdateLen _ => rfl
  | new _ | reset | update _ | finalize | digestLength => cases h

/-- FINALIZE completes with fewer than 16 bytes pending. -/
theorem effect_finalize {d : DigestState} (h : d.pending.length < 16) :
    effect .finalize d = (d.clearStream, wordsData d.digestWords) := by
  have ht : d.tailBroken = false := decide_eq_false (Nat.not_le_of_lt h)
  simp [effect, ht]

/-- Only NEW writes `seed` (R24). -/
theorem answer_seed {i : Instr} (h : ∀ x, i ≠ .new x) (d : DigestState) : (answer i d).1.seed = d.seed := by
  by_cases hd : d.fcause = 0
  · rw [answer_clear hd]
    cases i with
    | new x => exact absurd rfl (h x)
    | finalize => rw [effect]; split <;> rfl
    | _ => rfl
  · rw [answer_faulted hd]

/-- No legal command writes `fcause`, but for a FINALIZE that finds a broken tail (R131). -/
theorem answer_fcause_of_legal {i : Instr} {d : DigestState} (hi : i.isIllegal = false)
    (hfin : i = .finalize → d.pending.length < 16) : (answer i d).1.fcause = d.fcause := by
  by_cases hd : d.fcause = 0
  · rw [answer_clear hd]
    cases i with
    | new _ | reset | update _ | digestLength => rfl
    | finalize => rw [effect_finalize (hfin rfl)]; rfl
    | illegalOp0 | illegalOp6 | illegalOp7 | illegalUpdateLen _ => cases hi
  · rw [answer_faulted hd]

/-- DIGEST_LENGTH and an illegal word write nothing but `fcause`; it and `rdata` are functions of the old `fcause`. -/
theorem answer_of_readsOnlyLatch {i : Instr} (h : i = .digestLength ∨ i.isIllegal = true) (c : BitVec 2) :
    ∃ (c' : BitVec 2) (x : Payload), ∀ d : DigestState, d.fcause = c → answer i d = ({ d with fcause := c' }, x) := by
  by_cases hc : c = 0
  · obtain rfl | hi := h
    · exact ⟨0, 16, fun d hd => by subst hc; rw [answer_clear hd, ← hd]; rfl⟩
    · exact ⟨2, 0, fun d hd => by rw [answer_clear (hd.trans hc), effect_illegal hi]; rfl⟩
  · exact ⟨c, 0, fun d hd => by rw [answer_faulted (hd.trans_ne hc), ← hd]⟩

/-! ### The invariant (R25, R26, R27, R66) -/

theorem clearStream_inv {d : DigestState} (h : d.Inv) : d.clearStream.Inv := ⟨by simp, by simp, h.2.2⟩

theorem causeCode_ne_three (c : FaultCause) : causeCode c ≠ 3 := by cases c <;> decide

theorem latch_inv {d : DigestState} (h : d.Inv) (c : FaultCause) : (d.latch c).Inv :=
  ⟨h.1, h.2.1, causeCode_ne_three c⟩

/-- The low four bits of `total_length` survive its wrap at `2^64`. -/
theorem absorb_inv {d : DigestState} (h : d.Inv) (b : List Byte) : (d.absorb b).Inv := by
  obtain ⟨-, hlen, hcause⟩ := h
  refine ⟨?_, ?_, hcause⟩
  · rw [absorb_pending_length]
    omega
  · rw [absorb_pending_length, absorb_totalLength, add64_toNat, BitVec.toNat_ofNat]
    omega

theorem answer_inv {d : DigestState} (h : d.Inv) (i : Instr) : (answer i d).1.Inv := by
  by_cases hd : d.fcause = 0
  · rw [answer_clear hd]
    cases i with
    | new x => exact clearStream_inv (d := d.storeSeed x) h
    | reset => exact clearStream_inv h
    | update b => exact absorb_inv h b
    | finalize => rw [effect_finalize h.1]; exact clearStream_inv h
    | digestLength => exact h
    | illegalOp0 | illegalOp6 | illegalOp7 | illegalUpdateLen _ => exact latch_inv h _
  · rwa [answer_faulted hd]

/-- A command that leaves the engine faulted answers `rdata` 0 (R66). -/
theorem answer_rdata {i : Instr} {d : DigestState} (h : (answer i d).1.fcause ≠ 0) : (answer i d).2 = 0 := by
  by_cases hd : d.fcause = 0
  · rw [answer_clear hd] at h ⊢
    cases i with
    | finalize =>
      by_cases ht : d.tailBroken
      · simp [effect, ht]
      · exact absurd hd (by simpa [effect, ht] using h)
    | digestLength => exact absurd hd h
    | _ => rfl
  · rw [answer_faulted hd]

@[simp] theorem rspStatus_packRsp (st : BitVec 8) (x : Payload) : rspStatus (packRsp st x) = st :=
  BitVec.extractLsb'_append_eq_right

@[simp] theorem rspData_packRsp (st : BitVec 8) (x : Payload) : rspData (packRsp st x) = x :=
  BitVec.extractLsb'_append_eq_left

theorem reset_inv : DigestState.reset.Inv := by decide

/-- Every answer from a state that meets the invariant is a response R66 allows. -/
theorem rspLegal_answer {d : DigestState} (h : d.Inv) (i : Instr) :
    rspLegal (packRsp (answer i d).1.status (answer i d).2) := by
  have hcodes : ∀ c : BitVec 2, c ≠ 3 → (c.setWidth 8 : BitVec 8) = 0 ∨ (c.setWidth 8 : BitVec 8) = 1 ∨
      (c.setWidth 8 : BitVec 8) = 2 := by decide
  refine ⟨?_, fun hst => ?_⟩
  · rw [rspStatus_packRsp]
    exact hcodes _ (answer_inv h i).2.2
  · rw [rspStatus_packRsp, DigestState.status] at hst
    rw [rspData_packRsp]
    exact answer_rdata fun h0 => hst (by rw [h0]; rfl)

/-- Settles O58: a command's new architectural state and its response by `answer_inv` and `rspLegal_answer`. -/
theorem stepKeepsTheInvariant : Obligations.StepKeepsTheInvariant := by
  intro s t ⟨hinv, hcount, hlegal⟩ hstep
  obtain ⟨-, rfl⟩ | ⟨rest, -, rfl⟩ | ⟨w, rest, -, hexec⟩ := step_cases hstep
  · exact ⟨hinv, hcount, hlegal⟩
  · exact ⟨reset_inv, hcount, hlegal⟩
  · obtain rfl := eq_of_exec hexec
    refine ⟨answer_inv hinv _, by simp [hcount], fun r hr => ?_⟩
    obtain hr | hr := List.mem_append.mp hr
    · exact hlegal r hr
    · rw [List.mem_singleton.mp hr]
      exact rspLegal_answer hinv _

/-- Settles O59: the reset values meet `reset_inv`, and no response stands at position 0. -/
theorem resetMeetsTheInvariant : Obligations.ResetMeetsTheInvariant := fun _ => ⟨reset_inv, rfl, nofun⟩

/-! ### Steps and the stream (R28) -/

/-- The architectural state a step with a command leaves. -/
theorem step_cmd_digest {s : State} {w : Cmd} {rest : List Input} (h : s.inputs = .cmd w :: rest) :
    ∃ t, step s = .next t ∧ t.toDigestState = (answer (decode w) s.toDigestState).1 ∧ t.inputs = rest :=
  ⟨_, (step_cmd h).trans (exec_eq_answer _ _), rfl, rfl⟩

/-- A legal command leaves the state of the stream it makes. -/
theorem answer_streamState {i : Instr} (h : i.isIllegal = false) (seed : Seed) (S : List Byte) :
    (answer i (streamState seed S)).1 = streamState (streamAfter i (seed, S)).1 (streamAfter i (seed, S)).2 := by
  rw [answer_clear rfl]
  cases i with
  | new x => exact clearStream_eq_streamState (d := (streamState seed S).storeSeed x) rfl
  | reset => exact clearStream_eq_streamState rfl
  | update b => exact absorb_streamState seed S b
  | finalize =>
    rw [effect_finalize (streamState_pending_lt seed S)]
    exact clearStream_eq_streamState rfl
  | digestLength => rfl
  | illegalOp0 | illegalOp6 | illegalOp7 | illegalUpdateLen _ => cases h

/-- An illegal word changes only the latch. -/
theorem answer_streamState_illegal {i : Instr} (h : i.isIllegal = true) (seed : Seed) (S : List Byte) :
    (answer i (streamState seed S)).1 = { streamState seed S with fcause := 2 } := by
  rw [answer_clear rfl, effect_illegal h]
  rfl

/-- Settles O39: legal commands by `answer_streamState`, the rest by fault entry and by the reset values. -/
theorem stepFollowsTheStream : Obligations.StepFollowsTheStream := by
  refine ⟨reset_eq_streamState, fun s w rest seed S hin hs => ?_, fun s rest hin => ⟨_, step_rst hin, rfl⟩⟩
  obtain ⟨t, hstep, ht, -⟩ := step_cmd_digest hin
  rw [hs] at ht
  exact ⟨t, hstep, fun hi => ht.trans (answer_streamState hi seed S),
    fun hi => ht.trans (answer_streamState_illegal hi seed S)⟩

/-- The state is that of a seed and a stream, unless the engine is faulted. -/
def State.Follows (s : State) (p : Seed × List Byte) : Prop := s.fcause = 0 → s.toDigestState = streamState p.1 p.2

/-- Every input keeps the state that of its stream: a fault once latched stays, and an illegal word latches one. -/
theorem step_follows {s : State} {p : Seed × List Byte} {x : Input} {rest : List Input} (hs : s.Follows p)
    (hin : s.inputs = x :: rest) :
    ∃ t, step s = .next t ∧ t.Follows (streamAfterInput p x) ∧ t.inputs = rest := by
  cases x with
  | rst => exact ⟨_, step_rst hin, fun _ => reset_eq_streamState, rfl⟩
  | cmd w =>
    obtain ⟨t, hstep, ht, hrest⟩ := step_cmd_digest hin
    refine ⟨t, hstep, fun h0 => ?_, hrest⟩
    by_cases hc : s.fcause = 0
    · rw [hs hc] at ht
      cases hi : (decode w).isIllegal with
      | false => exact ht.trans (answer_streamState hi p.1 p.2)
      | true =>
        rw [ht, answer_streamState_illegal hi] at h0
        cases h0
    · rw [ht, answer_faulted hc] at h0
      exact absurd h0 hc

/-- A run follows the stream its inputs make. -/
theorem run_follows {k : Nat} {s t : State} {p : Seed × List Byte} (hs : s.Follows p) (hk : k ≤ s.inputs.length)
    (hrun : Host.Core.run core k s = .next t) : t.Follows ((s.inputs.take k).foldl streamAfterInput p) := by
  induction k generalizing s p with
  | zero => cases hrun; exact hs
  | succ k ih =>
    obtain ⟨x, rest, hin⟩ := List.exists_cons_of_length_pos (Nat.zero_lt_of_lt hk)
    obtain ⟨u, hstep, hu, hrest⟩ := step_follows hs hin
    rw [run_succ hstep] at hrun
    subst hrest
    rw [hin] at hk ⊢
    exact ih hu (Nat.le_of_succ_le_succ hk) hrun

/-- Settles O40: `run_follows` from the empty stream under seed 0. -/
theorem reachableStatesAreStreamStates : Obligations.ReachableStatesAreStreamStates :=
  fun _ _ _ hk hrun => run_follows (fun _ => reset_eq_streamState) hk hrun

/-! ### Lengths in the state of a stream (R27, R103) -/

/-- A tail at FINALIZE is a nonempty `pending`. -/
theorem hasTail_iff (d : DigestState) : d.hasTail = true ↔ d.pending.length ≠ 0 := by
  simp [DigestState.hasTail, Nat.one_le_iff_ne_zero]

/-- Settles O38: `total_length` is the length modulo `2^64`, a multiple of 16. -/
theorem streamLengths : Obligations.StreamLengths := by
  intro seed S
  have hlow : S.length % 16 = (streamState seed S).totalLength.toNat % 16 := by
    rw [streamState_totalLength, BitVec.toNat_ofNat]
    omega
  refine ⟨streamState_pending_length seed S, hlow, fun hL => ?_, ?_⟩
  · rw [streamState_totalLength, BitVec.toNat_ofNat, Nat.mod_eq_of_lt hL]
  · rw [hasTail_iff, streamState_pending_length, hlow]

/-- Settles O43: nothing is pending, so the tail step is the identity. -/
theorem wholeBlocksHaveNoTail : Obligations.WholeBlocksHaveNoTail := by
  intro seed S hL
  have hpend : (streamState seed S).pending = [] :=
    List.length_eq_zero_iff.mp ((streamState_pending_length seed S).trans hL)
  have htail : (streamState seed S).hasTail = false := by simp [DigestState.hasTail, hpend]
  refine ⟨hpend, htail, ?_, fun h16 => ?_⟩
  · rw [DigestState.tailStep, htail]
    rfl
  · rw [h16]
    rfl

/-! ### Runs of UPDATE (R90, R96) -/

/-- Settles O26: the buffer holds fewer than 16 bytes, or 16 to 31. -/
theorem updateAppendsABeat : Obligations.UpdateAppendsABeat := by
  intro b s hs hp hb
  rw [exec_eq_answer, answer_clear hs, effect]
  have hstatus : (s.absorb b).status = 0 := by rw [DigestState.status, absorb_fcause, hs]; rfl
  have hlen : (s.pending ++ b).length < 32 := by
    rw [List.length_append]
    omega
  simp only [State.respond, State.withDigest, hstatus]
  split
  · next h => rw [absorb_one_block h hlen]
  · next h => rw [absorb_short (Nat.lt_of_not_le h)]

/-- The lanes of a packed payload give back its bytes (R64). -/
theorem beatBytesOf_packBytes {b : List Byte} (h : b.length ≤ 16) : beatBytesOf b.length (packBytes b) = b := by
  refine List.ext_getElem (by simp [beatBytesOf]) fun i _ hi => ?_
  have hlane := laneByte_packBytes b i (by omega)
  simpa [beatBytesOf, hi] using hlane

theorem decode_encode_update {b : List Byte} (h : b.length ≤ 16) : decode (encode (.update b)) = .update b := by
  obtain ⟨hop, hlen, hdata⟩ := Sys2Proof.Laws.EncodedFields.update b
  have hn : (BitVec.ofNat 5 b.length).toNat = b.length := by
    rw [BitVec.toNat_ofNat]
    omega
  simp [decode, hop, hlen, hdata, opOf, lenOf, dataOf, hn, Config.beatBytes, h, beatBytesOf_packBytes h]

/-- A list of UPDATE commands absorbs the bytes of all of them. -/
theorem stateAfter_updates (chunks : List (List Byte)) {d : DigestState} (hd : d.fcause = 0) (hp : d.pending.length < 16) :
    stateAfter (chunks.map .update) d = d.absorb chunks.flatten := by
  induction chunks generalizing d with
  | nil => exact (absorb_nil hp).symm
  | cons c cs ih =>
    have hlt : (d.absorb c).pending.length < 16 := by
      rw [absorb_pending_length]
      omega
    rw [List.flatten_cons, ← absorb_absorb, ← ih (d := d.absorb c) hd hlt]
    simp [stateAfter, answer_clear hd, effect]

/-- Each of them is answered `(OK, 0)`. -/
theorem responsesTo_updates (chunks : List (List Byte)) {d : DigestState} (hd : d.fcause = 0) :
    responsesTo (chunks.map .update) d = List.replicate chunks.length (packRsp 0 0) := by
  induction chunks generalizing d with
  | nil => rfl
  | cons c cs ih =>
    rw [List.map_cons, responsesTo, answer_clear hd, effect, ih (d := d.absorb c) hd, DigestState.status, absorb_fcause, hd]
    rfl

/-- Settles O37: `run_commands` on canonical words, whose states and responses are those of one long update. -/
theorem beatsEqualOneLongUpdate : Obligations.BeatsEqualOneLongUpdate := by
  intro s chunks rest hs hp hb hin
  have hdec : ∀ i ∈ chunks.map Instr.update, decode (encode i) = i := by
    intro i hi
    obtain ⟨c, hc, rfl⟩ := List.mem_map.mp hi
    exact decode_encode_update (hb c hc)
  have hrun := run_commands (chunks.map .update) hdec hin
  rwa [List.length_map, stateAfter_updates chunks hs hp, responsesTo_updates chunks hs] at hrun

/-! ### Reads and writes of a command (R32, R34) -/

/-- Settles O30: the writes of `answer`, field by field. -/
theorem commandsWriteOnlyTheirColumns : Obligations.CommandsWriteOnlyTheirColumns := by
  intro i s t h
  obtain rfl := eq_of_exec h
  refine ⟨rfl, rfl, ⟨_, rfl⟩, fun hi => answer_seed hi _, fun hi => ?_, fun hi hf => ?_, fun hi hp => ?_, fun hs => ?_⟩
  · obtain ⟨c, x, hc⟩ := answer_of_readsOnlyLatch hi s.fcause
    simp [hc s.toDigestState rfl]
  · exact answer_fcause_of_legal hi fun h => absurd h hf
  · subst hi
    exact answer_fcause_of_legal rfl fun _ => hp
  · simp [answer_faulted hs]

/-- UPDATE does not look at `seed`. -/
theorem answer_update_storeSeed (b : List Byte) (x : Seed) (d : DigestState) :
    answer (.update b) (d.storeSeed x) = ((answer (.update b) d).1.storeSeed x, (answer (.update b) d).2) := by
  by_cases hd : d.fcause = 0
  · rw [answer_clear hd, answer_clear (d := d.storeSeed x) hd]
    rfl
  · rw [answer_faulted hd, answer_faulted (d := d.storeSeed x) hd]

/-- Settles O31: NEW and RESET leave an empty stream, whose state is made of the seed alone. -/
theorem commandsReadOnlyTheirColumns : Obligations.CommandsReadOnlyTheirColumns := by
  refine ⟨fun x s d hs hd => ?_, fun s d hs hd hseed => ?_, fun b x s t h => ?_, fun i s d hi hd => ?_⟩
  · simp only [exec_eq_answer, withDigest_toDigestState, answer_clear hs, answer_clear hd, effect]
    rw [clearStream_eq_streamState (d := d.storeSeed x) hd,
      clearStream_eq_streamState (d := s.toDigestState.storeSeed x) hs]
    rfl
  · simp only [exec_eq_answer, withDigest_toDigestState, answer_clear hs, answer_clear hd, effect]
    rw [clearStream_eq_streamState hd, clearStream_eq_streamState hs, hseed]
    rfl
  · obtain rfl := eq_of_exec h
    have hseed := answer_update_storeSeed b x s.toDigestState
    rw [DigestState.storeSeed] at hseed
    rw [exec_eq_answer]
    simp only [hseed]
    rfl
  · obtain ⟨c, x, hc⟩ := answer_of_readsOnlyLatch hi s.fcause
    refine ⟨_, _, exec_eq_answer i s, exec_eq_answer i _, ?_, ?_⟩
    · simp [hc s.toDigestState rfl, hc d hd, DigestState.status]
    · simp [hc s.toDigestState rfl, hc d hd]

/-- Settles O28: each reset leaves the empty stream of its seed, and NEW(0) that of seed 0. -/
theorem resetValuesOfEveryItem : Obligations.ResetValuesOfEveryItem := by
  refine ⟨⟨rfl, rfl, rfl, rfl, rfl, rfl⟩, fun s rest h => ⟨_, step_rst h, rfl, rfl, rfl, rfl, rfl, rfl⟩,
    fun x s h => ⟨_, exec_eq_answer _ s, ?_⟩, fun s h => ⟨_, exec_eq_answer _ s, ?_⟩,
    fun s h hp => ⟨_, exec_eq_answer _ s, ?_⟩, fun s h => ?_⟩
  · simp [answer_clear h, effect]
  · simp [answer_clear h, effect]
  · simp [answer_clear h, effect_finalize hp]
  · have hnew : (s.toDigestState.storeSeed 0).clearStream = DigestState.reset := clearStream_eq_streamState h
    rw [digestAfter_eq]
    simpa [stateAfter, newDefault, Config.seedDefault, answer_clear h, effect, State.reset] using hnew

/-! ### Steps of the machine (R24, R30, R135, R150) -/

/-- Settles O49: by `step_cases`; a faulted engine only answers. -/
theorem onlyHardwareResetClearsTheLatch : Obligations.OnlyHardwareResetClearsTheLatch := by
  intro s t hstep hs
  obtain ⟨hin, rfl⟩ | ⟨rest, hin, rfl⟩ | ⟨w, rest, hin, hexec⟩ := step_cases hstep
  · exact ⟨fun _ => rfl, fun ⟨rest, h⟩ => by simp [hin] at h⟩
  · exact ⟨fun h => absurd hin (h rest), fun _ => rfl⟩
  · refine ⟨fun _ => ?_, fun ⟨rest', h⟩ => by simp [hin] at h⟩
    cases (exec_faulted _ (s := s.acceptCmd rest) hs).symm.trans hexec
    rfl

/-- Settles O50: a command that changes `seed` found the engine unfaulted and, by `answer_seed`, is NEW. -/
theorem seedWrittenOnlyByNewAndHardwareReset : Obligations.SeedWrittenOnlyByNewAndHardwareReset := by
  intro s t hstep hne
  obtain ⟨-, rfl⟩ | ⟨rest, hin, rfl⟩ | ⟨w, rest, hin, hexec⟩ := step_cases hstep
  · exact absurd rfl hne
  · exact .inl ⟨rest, hin, rfl⟩
  · obtain rfl := eq_of_exec hexec
    have hs : s.fcause = 0 := by
      by_contra hs
      exact hne (by simp [answer_faulted hs])
    obtain ⟨x, hx⟩ : ∃ x, decode w = .new x := by
      by_contra hnew
      exact hne (answer_seed (fun x hx => hnew ⟨x, hx⟩) _)
    exact .inr ⟨w, rest, hin, hs, by simp [hx, answer_clear hs, effect]⟩

/-- What every step keeps holds after any run. -/
theorem run_keeps {P : State → Prop} (hP : ∀ s t, P s → step s = .next t → P t) {k : Nat} {s t : State} (hs : P s)
    (hrun : Host.Core.run core k s = .next t) : P t := by
  induction k generalizing s with
  | zero => cases hrun; exact hs
  | succ k ih =>
    obtain ⟨u, hstep, -⟩ := oneResponsePerCommand s
    rw [run_succ hstep] at hrun
    exact ih (hP s u hs hstep) hrun

/-- With fewer than 16 bytes pending no command latches code 1. -/
theorem answer_fcause_ne_one {d : DigestState} (hp : d.pending.length < 16) (h1 : d.fcause ≠ 1) (i : Instr) :
    (answer i d).1.fcause ≠ 1 := by
  cases hi : i.isIllegal with
  | false => rwa [answer_fcause_of_legal hi fun _ => hp]
  | true =>
    by_cases hd : d.fcause = 0
    · rw [answer_clear hd, effect_illegal hi]
      exact (by decide : causeCode .illegalCommand ≠ 1)
    · rwa [answer_faulted hd]

theorem step_keeps_unbroken {s t : State} (h : s.Inv ∧ s.fcause ≠ 1) (hstep : step s = .next t) :
    t.Inv ∧ t.fcause ≠ 1 := by
  refine ⟨stepKeepsTheInvariant s t h.1 hstep, ?_⟩
  obtain ⟨-, rfl⟩ | ⟨rest, -, rfl⟩ | ⟨w, rest, -, hexec⟩ := step_cases hstep
  · exact h.2
  · exact (by decide : DigestState.reset.fcause ≠ 1)
  · obtain rfl := eq_of_exec hexec
    exact answer_fcause_ne_one h.1.1.1 h.2 _

/-- Settles O52: `run_keeps` for the invariant together with a latch that is not 1. -/
theorem brokenTailIsUnreachable : Obligations.BrokenTailIsUnreachable := by
  intro k s t hinv h1 hrun
  obtain ⟨⟨⟨hlt, -⟩, -⟩, ht⟩ := run_keeps (fun _ _ => step_keeps_unbroken) ⟨hinv, h1⟩ hrun
  exact ⟨ht, hlt⟩

/-- Settles O53: this is `step_cmd`. -/
theorem stepRunsTheDecodedInstruction : Obligations.StepRunsTheDecodedInstruction := fun _ _ _ h => step_cmd h

/-- Settles O56: this is `step_rst`, with the reset values written out. -/
theorem hardwareResetSetsEveryItem : Obligations.HardwareResetSetsEveryItem := fun _ _ h => step_rst h

/-- The 17 bytes of a word together are the word (R72). -/
theorem wordOfBytes_serialOf (w : BitVec 136) : wordOfBytes 17 (serialOf w) = w := by
  refine word_ext_bytes fun i hi => ?_
  rw [wordOfBytes_byte 17 _ i hi hi]
  simp [serialOf, hi]

theorem decodeTableWord_eq (nbits w : Nat) : decodeTableWord nbits w = some (decode (tableCmd nbits w)) := by
  have hlen : (serialOf (tableCmd nbits w)).length = 17 := by simp [serialOf]
  simp [decodeTableWord, decodeBytes, hlen, wordOfBytes_serialOf]

/-- Settles O54: the serial form of R72 gives the word back, and the next step runs it. -/
theorem fetchWordRunsTheTableWord : Obligations.FetchWordRunsTheTableWord :=
  fun s nbits w => ⟨_, decodeTableWord_eq nbits w, step_cmd (s := s.withFetchWord nbits w) rfl, rfl⟩

end Sys2Proof.Machine
end

section
/-! PROOF. The tail's mix (43_mix_functions.md R120, R121), the byte lanes of a beat and of the digest (20_memory.md R42 to
R46), and FINALIZE's answer in the state of a stream (42_finalize.md R101). -/

namespace Sys2Proof.Machine

/-! ### Words made of bytes (R116) -/

/-- The first byte and the shifted rest have no bit in common, so their sum is their OR. -/
theorem le64_cons (b : Byte) (bs : List Byte) : le64 (b :: bs) = b.setWidth 64 ||| le64 bs <<< 8 := by
  refine BitVec.add_eq_or_of_and_eq_zero _ _ ?_
  ext j hj
  by_cases h8 : j < 8
  · simp [shl64, h8]
  · simp [BitVec.getLsbD_of_ge b j (by omega)]

/-- Bit `j` of the word is bit `j % 8` of byte `j / 8`, an absent byte being 0. -/
theorem getLsbD_le64 (s : List Byte) {j : Nat} (hj : j < 64) :
    (le64 s).getLsbD j = (s.getD (j / 8) 0).getLsbD (j % 8) := by
  induction s generalizing j with
  | nil => simp [le64]
  | cons b bs ih =>
    by_cases h8 : j < 8
    · simp [le64_cons, hj, h8, Nat.div_eq_of_lt h8, Nat.mod_eq_of_lt h8]
    · obtain ⟨k, rfl⟩ := Nat.exists_eq_add_of_le' (Nat.le_of_not_lt h8)
      have hbit : (le64 (b :: bs)).getLsbD (k + 8) = (le64 bs).getLsbD k := by
        rw [le64_cons, BitVec.getLsbD_or, BitVec.getLsbD_shiftLeft, BitVec.getLsbD_setWidth,
          BitVec.getLsbD_of_ge b (k + 8) (by omega)]
        simp [hj]
      rw [hbit, ih (by omega), Nat.add_div_right k (by decide), List.getD_cons_succ, Nat.add_mod_right]

/-- Bytes that are all 0 make the word 0. -/
theorem le64_eq_zero {s : List Byte} (h : ∀ x ∈ s, x = 0) : le64 s = 0 := by
  induction s with
  | nil => rfl
  | cons b bs ih =>
    obtain ⟨hb, hbs⟩ := List.forall_mem_cons.mp h
    rw [le64_cons, hb, ih hbs]
    decide

/-! ### Tail mix (R44, R120, R121) -/

theorem tailWords_eq_slices (t : List Byte) : tailWords t = (le64 (slice t 0 8), le64 (slice t 8 t.length)) := by
  simp [tailWords, slice, List.take_of_length_le]

theorem mixK1_zero : mixK1 0 = 0 := by decide

theorem mixK2_zero : mixK2 0 = 0 := by decide

/-- A zero `k2` leaves `h2`. -/
theorem tailMix_snd_of_zero {h : Word × Word} {t : List Byte} (hk : (tailWords t).2 = 0) : (tailMix h t).2 = h.2 := by
  rw [tailMix, hk, mixK2_zero]
  exact BitVec.xor_zero

/-- A zero `k1` leaves `h1`. -/
theorem tailMix_fst_of_zero {h : Word × Word} {t : List Byte} (hk : (tailWords t).1 = 0) : (tailMix h t).1 = h.1 := by
  rw [tailMix, hk, mixK1_zero]
  exact BitVec.xor_zero

/-- Settles O18: at most 8 bytes leave no byte for `k2`, and zero bytes make both tail words 0. -/
theorem tailMixIsKMixAndXor : Obligations.TailMixIsKMixAndXor := by
  refine fun h1 h2 t _ _ => ⟨?_, fun h8 => ?_, fun h0 => ?_⟩
  · rw [tailMix, tailWords_eq_slices]
    rfl
  · have hk2 : (tailWords t).2 = 0 := by rw [tailWords, List.drop_of_length_le h8]; rfl
    exact tailMix_snd_of_zero hk2
  · have hk1 : (tailWords t).1 = 0 := le64_eq_zero fun x hx => h0 x (List.mem_of_mem_take hx)
    have hk2 : (tailWords t).2 = 0 := le64_eq_zero fun x hx => h0 x (List.mem_of_mem_drop hx)
    exact Prod.ext (tailMix_fst_of_zero hk1) (tailMix_snd_of_zero hk2)

/-! ### Byte lanes (R42, R43, R45, R46) -/

theorem getElem?_beatBytesOf (data : Payload) {i n : Nat} (h : i < n) :
    (beatBytesOf n data)[i]? = some (laneByte data i) := by
  simp [beatBytesOf, h]

theorem getElem?_le64Bytes (w : Word) {i : Nat} (h : i < 8) : (le64Bytes w)[i]? = some (w.extractLsb' (8 * i) 8) := by
  simp [le64Bytes, h]

/-- Eight bytes of a whole beat, from byte `a` on, are the word in `data[8a+63:8a]`. -/
theorem le64_slice_beat (data : Payload) {a : Nat} (ha : a ≤ 8) :
    le64 (slice (beatBytesOf 16 data) a (a + 8)) = data.extractLsb' (8 * a) 64 := by
  refine BitVec.eq_of_getLsbD_eq fun j hj => ?_
  have hbyte : (slice (beatBytesOf 16 data) a (a + 8)).getD (j / 8) 0 = laneByte data (a + j / 8) := by
    rw [slice, List.getD_eq_getElem?_getD, List.getElem?_take_of_lt (by omega), List.getElem?_drop,
      getElem?_beatBytesOf data (by omega)]
    rfl
  have hbit : 8 * (a + j / 8) + j % 8 = 8 * a + j := by omega
  rw [getLsbD_le64 _ hj, hbyte]
  simp [laneByte, hj, hbit, Nat.mod_lt]

theorem wordsData_low (h : Word × Word) : (wordsData h).extractLsb' 0 64 = h.1 := BitVec.extractLsb'_append_eq_right

theorem wordsData_high (h : Word × Word) : (wordsData h).extractLsb' 64 64 = h.2 := BitVec.extractLsb'_append_eq_left

theorem laneByte_wordsData_low (h : Word × Word) {i : Nat} (hi : i < 8) :
    laneByte (wordsData h) i = h.1.extractLsb' (8 * i) 8 :=
  BitVec.extractLsb'_append_eq_of_add_le (by omega)

theorem laneByte_wordsData_high (h : Word × Word) (i : Nat) :
    laneByte (wordsData h) (8 + i) = h.2.extractLsb' (8 * i) 8 := by
  rw [laneByte, wordsData, BitVec.extractLsb'_append_eq_of_le (by omega)]
  congr 1
  omega

/-- The digest is the bytes of `rdata`, lane 0 first. -/
theorem serialise_eq_beatBytesOf (h : Word × Word) : serialise h = beatBytesOf 16 (wordsData h) := by
  have hlow : ∀ i ∈ List.range 8, h.1.extractLsb' (8 * i) 8 = laneByte (wordsData h) i :=
    fun i hi => (laneByte_wordsData_low h (List.mem_range.mp hi)).symm
  rw [serialise, le64Bytes, le64Bytes, beatBytesOf, List.range_add (n := 8) (m := 8), List.map_append, List.map_map]
  exact congrArg₂ _ (List.map_congr_left hlow) (List.map_congr_left fun i _ => (laneByte_wordsData_high h i).symm)

theorem getElem?_serialise (h : Word × Word) {i : Nat} (hi : i < 16) :
    (serialise h)[i]? = some (laneByte (wordsData h) i) := by
  rw [serialise_eq_beatBytesOf, getElem?_beatBytesOf _ hi]

/-- Settles O22: the digest and a whole beat are both `beatBytesOf 16` of their payload. -/
theorem digestAndDataLanes : Obligations.DigestAndDataLanes := by
  refine ⟨fun h => ⟨rfl, wordsData_low h, wordsData_high h, fun i hi => getElem?_serialise h hi, fun i hi => ⟨?_, ?_⟩⟩,
    fun data => ⟨fun i hi => getElem?_beatBytesOf data hi, le64_slice_beat data (a := 0) (by omega),
      le64_slice_beat data (a := 8) (by omega)⟩⟩
  · rw [getElem?_serialise h (by omega), laneByte_wordsData_low h hi]
  · rw [getElem?_serialise h (by omega), laneByte_wordsData_high]

/-! ### FINALIZE in the state of a stream (R100, R101) -/

/-- FINALIZE in an unfaulted engine with fewer than 16 bytes pending: the digest's words, and the reset of step 7. -/
theorem exec_finalize {s : State} (hs : s.fcause = 0) (hp : s.pending.length < 16) :
    exec .finalize s = .next
      { s.withDigest s.clearStream with responses := s.responses ++ [packRsp 0 (wordsData s.digestWords)] } := by
  rw [exec_eq_answer, answer_clear hs, effect_finalize hp]
  simp [State.respond, DigestState.status, hs]

/-- Step 1 of R100, half by half. -/
theorem tailStep_eq (d : DigestState) :
    d.tailStep =
      (if 1 ≤ d.pending.length then d.h1 ^^^ mixK1 (tailWords d.pending).1 else d.h1,
        if 1 ≤ d.pending.length then d.h2 ^^^ mixK2 (tailWords d.pending).2 else d.h2) := by
  by_cases h : 1 ≤ d.pending.length
  · simp [DigestState.tailStep, DigestState.hasTail, h, tailMix, xor64]
  · simp [DigestState.tailStep, DigestState.hasTail, h]

/-- FINALIZE's words in the state of a stream are R101's, statement by statement. -/
theorem digestWords_streamState (seed : Seed) (S : List Byte) : (streamState seed S).digestWords = digestOf seed S := by
  rw [DigestState.digestWords, tailStep_eq]
  rfl

/-- Settles O41: a stream's state is unfaulted with fewer than 16 bytes pending, and its digest words are R101's. -/
theorem finalizeAnswersDigestOfTheStream : Obligations.FinalizeAnswersDigestOfTheStream := by
  intro s seed S hs
  refine ⟨?_, fun i hi => getElem?_serialise (digestOf seed S) hi⟩
  have hclear : (streamState seed S).clearStream = streamState seed [] := clearStream_eq_streamState rfl
  rw [exec_finalize (by rw [hs]; rfl) (by rw [hs]; exact streamState_pending_lt seed S), hs, hclear,
    digestWords_streamState]

end Sys2Proof.Machine
end

section
/-! PROOF. The decoder and the encoder (30_encoding.md R61 to R73): one equation for each `op`, decode of encode, the
canonical words as numbers, the illegal words, the ignored fields and the serial form. -/

namespace Sys2Proof.Machine

/-! ### The decoder, one equation for each row of R71 -/

theorem decode_op0 {w : Cmd} (h : cmdOp w = 0) : decode w = .illegalOp0 := by simp [decode, h]

theorem decode_op1 {w : Cmd} (h : cmdOp w = 1) : decode w = .new (seedOperand (cmdData w)) := by simp [decode, h]

theorem decode_op2 {w : Cmd} (h : cmdOp w = 2) : decode w = .reset := by simp [decode, h]

theorem decode_op3_update {w : Cmd} (h : cmdOp w = 3) (hn : (cmdLen w).toNat ≤ 16) :
    decode w = .update (beatBytesOf (cmdLen w).toNat (cmdData w)) := by
  simp [decode, h, Config.beatBytes, hn]

theorem decode_op3_illegal {w : Cmd} (h : cmdOp w = 3) (hn : 16 < (cmdLen w).toNat) :
    decode w = .illegalUpdateLen (cmdLen w) := by
  simp [decode, h, Config.beatBytes, Nat.not_le.mpr hn]

theorem decode_op4 {w : Cmd} (h : cmdOp w = 4) : decode w = .finalize := by simp [decode, h]

theorem decode_op5 {w : Cmd} (h : cmdOp w = 5) : decode w = .digestLength := by simp [decode, h]

theorem decode_op6 {w : Cmd} (h : cmdOp w = 6) : decode w = .illegalOp6 := by simp [decode, h]

theorem decode_op7 {w : Cmd} (h : cmdOp w = 7) : decode w = .illegalOp7 := by simp [decode, h]

theorem op_cases : ∀ op : BitVec 3,
    op = 0 ∨ op = 1 ∨ op = 2 ∨ op = 3 ∨ op = 4 ∨ op = 5 ∨ op = 6 ∨ op = 7 := by decide

/-- All a word can decode to, UPDATE's two rows first. -/
theorem decode_cases (w : Cmd) :
    (cmdOp w = 3 ∧ (cmdLen w).toNat ≤ 16 ∧ decode w = .update (beatBytesOf (cmdLen w).toNat (cmdData w))) ∨
    (cmdOp w = 3 ∧ 16 < (cmdLen w).toNat ∧ decode w = .illegalUpdateLen (cmdLen w)) ∨
    (cmdOp w = 0 ∧ decode w = .illegalOp0) ∨
    (cmdOp w = 1 ∧ decode w = .new (seedOperand (cmdData w))) ∨
    (cmdOp w = 2 ∧ decode w = .reset) ∨
    (cmdOp w = 4 ∧ decode w = .finalize) ∨
    (cmdOp w = 5 ∧ decode w = .digestLength) ∨
    (cmdOp w = 6 ∧ decode w = .illegalOp6) ∨
    (cmdOp w = 7 ∧ decode w = .illegalOp7) := by
  obtain h | h | h | h | h | h | h | h := op_cases (cmdOp w)
  · simp [h, decode_op0 h]
  · simp [h, decode_op1 h]
  · simp [h, decode_op2 h]
  · obtain hn | hn := le_or_gt (cmdLen w).toNat 16
    · exact .inl ⟨h, hn, decode_op3_update h hn⟩
    · exact .inr (.inl ⟨h, hn, decode_op3_illegal h hn⟩)
  · simp [h, decode_op4 h]
  · simp [h, decode_op5 h]
  · simp [h, decode_op6 h]
  · simp [h, decode_op7 h]

/-! ### The operand fields, as bits of the word (R61, R64, R65) -/

/-- Bit `a` of the payload is bit `8 + a` of the word. -/
theorem extractLsb'_cmdData (w : Cmd) {a n : Nat} (h : a + n ≤ 128) :
    (cmdData w).extractLsb' a n = w.extractLsb' (8 + a) n := by
  ext i hi
  simp [cmdData, show a + i < 128 by omega, Nat.add_assoc]

theorem seedOperand_cmdData (w : Cmd) : seedOperand (cmdData w) = w.extractLsb' 8 32 :=
  extractLsb'_cmdData w (by decide)

theorem laneByte_cmdData (w : Cmd) {i : Nat} (hi : i < 16) :
    laneByte (cmdData w) i = w.extractLsb' (8 * i + 8) 8 := by
  rw [laneByte, extractLsb'_cmdData w (by omega), Nat.add_comm]

theorem beatBytesOf_length (n : Nat) (data : Payload) : (beatBytesOf n data).length = n := by simp [beatBytesOf]

/-- Settles O2: the equations above, with the operand fields as bits of the word. -/
theorem decodeFollowsTheProcedure : Obligations.DecodeFollowsTheProcedure := by
  intro w
  refine ⟨fun h => ?_, decode_op2, fun h hn => ⟨_, decode_op3_update h hn, beatBytesOf_length _ _, fun i hi => ?_⟩,
    decode_op3_illegal, decode_op4, decode_op5, decode_op0, decode_op6, decode_op7⟩
  · rw [decode_op1 h, seedOperand_cmdData]
  · rw [beatBytesOf_length] at hi
    have h16 : i < 16 := hi.trans_le hn
    rw [getElem?_beatBytesOf _ hi, laneByte_cmdData w h16]

/-- Settles O4: only UPDATE's two rows carry a condition, and the decoder tests it. -/
theorem decodedInstructionIsWellFormed : Obligations.DecodedInstructionIsWellFormed := by
  intro w
  obtain ⟨-, hn, h⟩ | ⟨-, hn, h⟩ | ⟨-, h⟩ | ⟨-, h⟩ | ⟨-, h⟩ | ⟨-, h⟩ | ⟨-, h⟩ | ⟨-, h⟩ | ⟨-, h⟩ := decode_cases w
  · rw [h, Instr.wellFormed, beatBytesOf_length]
    exact decide_eq_true hn
  · rw [h]
    exact decide_eq_true hn
  all_goals
    rw [h]
    rfl

/-! ### The canonical word (R62, R63, R68, R73) -/

theorem cmdOp_encode (i : Instr) : cmdOp (encode i) = opOf i := (Laws.EncodedFields.all i).1

theorem cmdLen_encode (i : Instr) : cmdLen (encode i) = lenOf i := (Laws.EncodedFields.all i).2.1

theorem cmdData_encode (i : Instr) : cmdData (encode i) = dataOf i := (Laws.EncodedFields.all i).2.2

theorem seedOperand_setWidth (x : Seed) : seedOperand (x.setWidth 128) = x := by
  ext i hi
  simp [seedOperand, hi, show i < 128 by omega]

theorem decode_encode_new (x : Seed) : decode (encode (.new x)) = .new x := by
  rw [decode_op1 (cmdOp_encode _), cmdData_encode, dataOf, seedOperand_setWidth]

theorem decode_encode_illegalUpdateLen {len : BitVec 5} (h : 17 ≤ len.toNat) :
    decode (encode (.illegalUpdateLen len)) = .illegalUpdateLen len := by
  have hlen : cmdLen (encode (.illegalUpdateLen len)) = len := cmdLen_encode _
  rw [decode_op3_illegal (cmdOp_encode _) (by rw [hlen]; exact h), hlen]

/-- Settles O3: by the operand where there is one, by `op` alone where there is none. -/
theorem decodeOfEncodeIsTheInstruction : Obligations.DecodeOfEncodeIsTheInstruction := by
  intro i h
  cases i with
  | new x => exact decode_encode_new x
  | reset => exact decode_op2 (cmdOp_encode _)
  | update b => exact decode_encode_update (of_decide_eq_true h)
  | finalize => exact decode_op4 (cmdOp_encode _)
  | digestLength => exact decode_op5 (cmdOp_encode _)
  | illegalOp0 => exact decode_op0 (cmdOp_encode _)
  | illegalOp6 => exact decode_op6 (cmdOp_encode _)
  | illegalOp7 => exact decode_op7 (cmdOp_encode _)
  | illegalUpdateLen len => exact decode_encode_illegalUpdateLen (of_decide_eq_true h)

/-- The three fields of a word do not overlap. -/
theorem packCmd_toNat (op : BitVec 3) (len : BitVec 5) (data : Payload) :
    (packCmd op len data).toNat = op.toNat + 8 * len.toNat + 2 ^ 8 * data.toNat := by
  have hhi : (data ++ len).toNat = data.toNat <<< 5 + len.toNat := by
    rw [BitVec.toNat_append, Nat.shiftLeft_add_eq_or_of_lt len.isLt]
  have hw : (data ++ len ++ op).toNat = (data ++ len).toNat <<< 3 + op.toNat := by
    rw [BitVec.toNat_append, Nat.shiftLeft_add_eq_or_of_lt op.isLt]
  rw [packCmd, hw, hhi, Nat.shiftLeft_eq, Nat.shiftLeft_eq]
  omega

/-- The payload of a longer list, while no byte is lost. -/
theorem packBytes_cons_toNat (b : Byte) {bs : List Byte} (h : (packBytes bs).toNat < 2 ^ 120) :
    (packBytes (b :: bs)).toNat = b.toNat + 2 ^ 8 * (packBytes bs).toNat := by
  have hb : b.toNat < 2 ^ 8 := b.isLt
  have hlow : (b.setWidth 128).toNat = b.toNat := by
    rw [BitVec.toNat_setWidth]
    omega
  have hhigh : (packBytes bs <<< 8).toNat = (packBytes bs).toNat <<< 8 := by
    rw [BitVec.toNat_shiftLeft, Nat.shiftLeft_eq]
    omega
  rw [packBytes, BitVec.toNat_or, hlow, hhigh, Nat.or_comm, ← Nat.shiftLeft_add_eq_or_of_lt hb, Nat.shiftLeft_eq]
  omega

/-- The bytes of a list bound its payload. -/
theorem packBytes_lt : ∀ {b : List Byte}, b.length ≤ 16 → (packBytes b).toNat < 2 ^ (8 * b.length)
  | [], _ => by simp [packBytes]
  | x :: xs, h => by
    have hl : xs.length ≤ 15 := Nat.le_of_succ_le_succ h
    have ih := packBytes_lt (b := xs) (by omega)
    have h120 : (packBytes xs).toNat < 2 ^ 120 := ih.trans_le (Nat.pow_le_pow_right (by decide) (by omega))
    have hx := x.isLt
    rw [packBytes_cons_toNat x h120, List.length_cons, Nat.mul_succ, pow_add]
    omega

/-- The payload as the sum of its bytes, each in its lane (R46). -/
theorem packBytes_toNat : ∀ {b : List Byte}, b.length ≤ 16 →
    (packBytes b).toNat = ((List.range b.length).map fun i => (b.getD i 0).toNat * 2 ^ (8 * i)).sum
  | [], _ => rfl
  | x :: xs, h => by
    have hl : xs.length ≤ 15 := Nat.le_of_succ_le_succ h
    have hlt : (packBytes xs).toNat < 2 ^ 120 :=
      (packBytes_lt (b := xs) (by omega)).trans_le (Nat.pow_le_pow_right (by decide) (by omega))
    have htail : ((List.range xs.length).map fun i => (xs.getD i 0).toNat * 2 ^ (8 * (i + 1))).sum =
        2 ^ 8 * (packBytes xs).toNat := by
      rw [packBytes_toNat (by omega), ← List.sum_map_mul_left]
      exact congrArg List.sum (List.map_congr_left fun i _ => by ring)
    rw [packBytes_cons_toNat x hlt, ← htail, List.length_cons, List.range_succ_eq_map, List.map_cons, List.map_map,
      List.sum_cons]
    simp [Function.comp_def]

/-- Settles O5: the three fields of each canonical word, as one number. -/
theorem canonicalWordsAsNumbers : Obligations.CanonicalWordsAsNumbers := by
  refine ⟨fun x => ?_, by decide, by decide, by decide, fun b hb => ?_⟩
  · have hx : (x.setWidth 128).toNat = x.toNat := BitVec.toNat_setWidth_of_le (by decide)
    rw [encode, packCmd_toNat, dataOf, hx]
    rfl
  · have hn : (BitVec.ofNat 5 b.length).toNat = b.length := by
      rw [BitVec.toNat_ofNat]
      omega
    rw [encode, packCmd_toNat, dataOf, packBytes_toNat hb, lenOf, hn]
    rfl

/-! ### Illegal words (R69) -/

theorem isIllegal_decode_iff (w : Cmd) :
    (decode w).isIllegal = true ↔
      cmdOp w = 0 ∨ cmdOp w = 6 ∨ cmdOp w = 7 ∨ (cmdOp w = 3 ∧ 16 < (cmdLen w).toNat) := by
  obtain ⟨ho, hn, h⟩ | ⟨ho, hn, h⟩ | ⟨ho, h⟩ | ⟨ho, h⟩ | ⟨ho, h⟩ | ⟨ho, h⟩ | ⟨ho, h⟩ | ⟨ho, h⟩ | ⟨ho, h⟩ :=
    decode_cases w
  · simp [h, ho, Instr.isIllegal, hn]
  · simp [h, ho, Instr.isIllegal, hn]
  all_goals simp [h, ho, Instr.isIllegal]

/-- Fault entry, the one meaning of the four illegal instructions (R132, R133). -/
theorem exec_illegal {i : Instr} (hi : i.isIllegal = true) {s : State} (hs : s.fcause = 0) :
    exec i s = .next { s with fcause := 2, responses := s.responses ++ [packRsp 2 0] } := by
  rw [exec_eq_answer, answer_clear hs, effect_illegal hi]
  rfl

/-- Settles O45: each is `exec_illegal`. -/
theorem illegalInstructionsLatch : Obligations.IllegalInstructionsLatch :=
  fun _ hs => ⟨exec_illegal rfl hs, exec_illegal rfl hs, exec_illegal rfl hs, fun _ => exec_illegal rfl hs⟩

/-- Settles O6: `len` has five bits, so it is at most 31; the count runs over the 256 headers. -/
theorem illegalWordsExactly : Obligations.IllegalWordsExactly := by
  refine ⟨fun w => ?_, fun s w rest hs hin hi => ?_, by decide, by decide +kernel⟩
  · have h31 : (cmdLen w).toNat ≤ 31 := Nat.le_of_lt_succ (cmdLen w).isLt
    refine (isIllegal_decode_iff w).trans (or_congr_right (or_congr_right (or_congr_right (and_congr_right fun _ => ?_))))
    exact (and_iff_left h31).symm
  · rw [step_cmd hin, exec_illegal hi (s := s.acceptCmd rest) hs]
    rfl

/-! ### Ignored fields (R68) -/

/-- Words that agree on `op` and on the fields their `op` reads decode alike. -/
theorem decode_congr {w w' : Cmd} (hop : cmdOp w = cmdOp w')
    (hseed : cmdOp w = 1 → seedOperand (cmdData w) = seedOperand (cmdData w'))
    (hupd : cmdOp w = 3 → cmdLen w = cmdLen w' ∧
      ∀ i < (cmdLen w).toNat, i < 16 → laneByte (cmdData w) i = laneByte (cmdData w') i) :
    decode w = decode w' := by
  obtain ⟨ho, hn, h⟩ | ⟨ho, hn, h⟩ | ⟨ho, h⟩ | ⟨ho, h⟩ | ⟨ho, h⟩ | ⟨ho, h⟩ | ⟨ho, h⟩ | ⟨ho, h⟩ | ⟨ho, h⟩ :=
    decode_cases w
  all_goals have ho' := hop.symm.trans ho
  · obtain ⟨hlen, hlanes⟩ := hupd ho
    have hbytes : beatBytesOf (cmdLen w).toNat (cmdData w) = beatBytesOf (cmdLen w).toNat (cmdData w') :=
      List.map_congr_left fun i hi => hlanes i (List.mem_range.mp hi) ((List.mem_range.mp hi).trans_le hn)
    rw [h, hbytes, hlen, decode_op3_update ho' (hlen ▸ hn)]
  · obtain ⟨hlen, -⟩ := hupd ho
    rw [h, hlen, decode_op3_illegal ho' (hlen ▸ hn)]
  · rw [h, decode_op0 ho']
  · rw [h, decode_op1 ho', hseed ho]
  · rw [h, decode_op2 ho']
  · rw [h, decode_op4 ho']
  · rw [h, decode_op5 ho']
  · rw [h, decode_op6 ho']
  · rw [h, decode_op7 ho']

theorem encode_new_high (x : Seed) : (encode (.new x)).extractLsb' 40 96 = 0 := by
  rw [← extractLsb'_cmdData (encode (.new x)) (a := 32) (by decide), cmdData_encode, dataOf]
  ext i hi
  simp

/-- Settles O7: a step reads a word only through `decode`; the canonical words' fields are `lenOf` and `dataOf`. -/
theorem ignoredFieldsAreIgnored : Obligations.IgnoredFieldsAreIgnored := by
  refine ⟨fun s w w' rest hop hseed hupd => ?_, by decide, fun x => ⟨cmdLen_encode _, encode_new_high x⟩,
    fun b i hi hb => ?_⟩
  · have hdec : decode w = decode w' := by
      refine decode_congr hop (fun h => ?_) fun h => ⟨(hupd h).1, fun i hi h16 => ?_⟩
      · rw [seedOperand_cmdData, seedOperand_cmdData, hseed h]
      · rw [laneByte_cmdData w h16, laneByte_cmdData w' h16, (hupd h).2 i hi]
    rw [step_cmd (w := w) rfl, step_cmd (w := w') rfl, hdec]
    rfl
  · rw [← laneByte_cmdData _ hi, cmdData_encode, dataOf, laneByte_packBytes b i hi, List.getD_eq_default _ _ hb]

/-! ### The serial form (R72) -/

@[simp] theorem serialOf_length (w : Cmd) : (serialOf w).length = 17 := by simp [serialOf]

theorem getElem?_serialOf (w : Cmd) {i : Nat} (hi : i < 17) : (serialOf w)[i]? = some (w.extractLsb' (8 * i) 8) := by
  simp [serialOf, hi]

/-- Settles O8: byte `1 + i` begins at bit `8 i + 8`. -/
theorem serialFormOfAWord : Obligations.SerialFormOfAWord := by
  refine fun w => ⟨serialOf_length w, getElem?_serialOf w (by decide), fun i hi => ?_, wordOfBytes_serialOf w⟩
  rw [getElem?_serialOf w (by omega), Nat.mul_add, Nat.add_comm]

/-- The bytes after the 17th are not read. -/
theorem wordOfBytes_serialOf_append (w : Cmd) (rest : List Byte) : wordOfBytes 17 (serialOf w ++ rest) = w := by
  refine word_ext_bytes fun i hi => ?_
  rw [wordOfBytes_byte 17 _ i hi hi, List.getD_append _ _ _ _ (by simpa using hi), List.getD_eq_getElem?_getD,
    getElem?_serialOf w hi]
  rfl

/-- Settles O9: the first 17 bytes are the word, and the rest is what `drop` leaves. -/
theorem byteDecodingTakesOneWord : Obligations.ByteDecodingTakesOneWord := by
  refine ⟨fun w rest => ?_, fun bytes h => if_neg (Nat.not_le.mpr h)⟩
  have hlen : 17 ≤ (serialOf w ++ rest).length := by simp
  rw [decodeBytes, if_pos hlen, wordOfBytes_serialOf_append, List.drop_left' (serialOf_length w)]

/-- Settles O1: closed words. -/
theorem wordsOfTheSpecDecode : Obligations.WordsOfTheSpecDecode := by
  unfold Obligations.WordsOfTheSpecDecode
  decide

end Sys2Proof.Machine
end

section
/-! PROOF. The answers of the commands in an unfaulted engine (40_lifecycle.md, 42_finalize.md R100), the response word
(30_encoding.md R66) and the pseudo-instructions UPDATEN and HASH (R74). -/

namespace Sys2Proof.Machine

/-! ### Commands that complete (R80 to R82, R100) -/

/-- Settles O23: NEW's new state keeps `fcause` 0, so it completes with OK. -/
theorem newStoresTheSeedAndResets : Obligations.NewStoresTheSeedAndResets :=
  fun x s hs => (unlessFaulted_clear hs _).trans (complete_clear s (d := (s.storeSeed x).clearStream) hs 0)

/-- Settles O24: as NEW, from the stored seed. -/
theorem resetReturnsToTheSeed : Obligations.ResetReturnsToTheSeed :=
  fun s hs => (unlessFaulted_clear hs _).trans (complete_clear s (d := s.clearStream) hs 0)

/-- Settles O25: it completes on the state as it is. -/
theorem digestLengthAnswersSixteen : Obligations.DigestLengthAnswersSixteen :=
  fun s hs => (unlessFaulted_clear hs _).trans (complete_clear s hs 16)

/-- Settles O27: the working words are those of `digestWords`, its tail step by `tailStep_eq`. -/
theorem finalizeAnswersTheDigestAndResets : Obligations.FinalizeAnswersTheDigestAndResets := by
  rintro s a1 b1 a2 b2 a3 b3 a4 b4 a5 b5 hs hp h1 h1' rfl rfl rfl rfl rfl rfl rfl rfl
  have htail : s.tailStep = (a1, b1) := by rw [tailStep_eq, h1, h1']
  rw [exec_finalize hs hp, DigestState.digestWords, htail]
  rfl

/-! ### The response word (R66) -/

/-- All a command can do to the latch: leave it, or latch a cause and do nothing else. -/
theorem answer_latch_cases (i : Instr) (d : DigestState) :
    (answer i d).1.fcause = d.fcause ∨ ∃ c, answer i d = (d.latch c, 0) := by
  by_cases hd : d.fcause = 0
  · rw [answer_clear hd]
    cases i with
    | new _ | reset | update _ | digestLength => exact .inl rfl
    | finalize =>
      rw [effect]
      split
      · exact .inr ⟨_, rfl⟩
      · exact .inl rfl
    | illegalOp0 | illegalOp6 | illegalOp7 | illegalUpdateLen _ => exact .inr ⟨_, rfl⟩
  · rw [answer_faulted hd]
    exact .inl rfl

theorem answer_fcause_ne_three {d : DigestState} (h : d.fcause ≠ 3) (i : Instr) : (answer i d).1.fcause ≠ 3 := by
  obtain hkeep | ⟨c, hc⟩ := answer_latch_cases i d
  · rwa [hkeep]
  · rw [hc]
    exact causeCode_ne_three c

/-- A command that leaves the engine faulted has written nothing but the latch, and answers `rdata` 0. -/
theorem answer_of_fault {i : Instr} {d : DigestState} (h : (answer i d).1.fcause ≠ 0) :
    ∃ c, answer i d = ({ d with fcause := c }, 0) := by
  by_cases hd : d.fcause = 0
  · obtain hkeep | ⟨c, hc⟩ := answer_latch_cases i d
    · exact absurd (hkeep.trans hd) h
    · exact ⟨_, hc⟩
  · exact ⟨d.fcause, answer_faulted hd i⟩

theorem status_values : ∀ c : BitVec 2, c ≠ 3 →
    (c.setWidth 8 : BitVec 8) = 0 ∨ (c.setWidth 8 : BitVec 8) = 1 ∨ (c.setWidth 8 : BitVec 8) = 2 := by decide

/-- Settles O10: the response is the one `exec_eq_answer` names; `answer_of_fault` for a status other than OK. -/
theorem responseCarriesTheLatch : Obligations.ResponseCarriesTheLatch := by
  refine ⟨fun st x => ⟨rspStatus_packRsp st x, rspData_packRsp st x⟩, fun s w rest hin h3 => ?_⟩
  refine ⟨_, _, (step_cmd hin).trans (exec_eq_answer _ _), rfl, rspStatus_packRsp _ _, ?_, fun hst => ?_⟩
  · rw [rspStatus_packRsp]
    exact status_values _ (answer_fcause_ne_three h3 _)
  · rw [rspStatus_packRsp] at hst
    have hf : (answer (decode w) s.toDigestState).1.fcause ≠ 0 := fun h0 => hst (congrArg (BitVec.setWidth 8) h0)
    obtain ⟨c, hc⟩ := answer_of_fault hf
    simp [hc]

/-! ### UPDATEN (R74) -/

/-- The byte sequences of the UPDATE commands UPDATEN expands to. -/
def chunksOf (bytes : List Byte) : List (List Byte) :=
  (List.range ((bytes.length + 15) / 16)).map fun j => slice bytes (16 * j) (16 * j + 16)

theorem updateN_eq (bytes : List Byte) : updateN bytes = (chunksOf bytes).map .update := by
  rw [chunksOf, List.map_map]
  rfl

@[simp] theorem chunksOf_length (bytes : List Byte) : (chunksOf bytes).length = (bytes.length + 15) / 16 := by
  simp [chunksOf]

/-- The first `k` slices of 16 bytes are the first `16 k` bytes. -/
theorem flatten_slices (bytes : List Byte) (k : Nat) :
    ((List.range k).map fun j => slice bytes (16 * j) (16 * j + 16)).flatten = bytes.take (16 * k) := by
  induction k with
  | zero => rfl
  | succ k ih =>
    rw [List.range_succ, List.map_append, List.flatten_append, ih, Nat.mul_succ, List.take_add]
    simp [slice]

theorem chunksOf_flatten (bytes : List Byte) : (chunksOf bytes).flatten = bytes := by
  rw [chunksOf, flatten_slices, List.take_of_length_le (by omega)]

theorem chunksOf_mem_length {bytes c : List Byte} (h : c ∈ chunksOf bytes) : 1 ≤ c.length ∧ c.length ≤ 16 := by
  obtain ⟨j, hj, rfl⟩ := List.mem_map.mp h
  rw [List.mem_range] at hj
  rw [slice_length]
  omega

/-- A slice that is not the last begins at least 16 bytes before the end. -/
theorem chunksOf_dropLast_length {bytes c : List Byte} (h : c ∈ (chunksOf bytes).dropLast) : c.length = 16 := by
  rw [chunksOf, ← List.map_dropLast] at h
  obtain ⟨j, hj, rfl⟩ := List.mem_map.mp h
  rw [List.dropLast_eq_take, List.take_range, List.mem_range, List.length_range] at hj
  rw [slice_length]
  omega

/-- Settles O11: the chunks are the slices of 16 bytes. -/
theorem updateNCarriesTheBytes : Obligations.UpdateNCarriesTheBytes :=
  fun bytes => ⟨chunksOf bytes, updateN_eq bytes, chunksOf_flatten bytes, chunksOf_length bytes,
    fun _ => chunksOf_mem_length, fun _ => chunksOf_dropLast_length⟩

/-! ### HASH (R74, R101) -/

theorem stateAfter_append (a b : List Instr) (d : DigestState) : stateAfter (a ++ b) d = stateAfter b (stateAfter a d) :=
  List.foldl_append

theorem responsesTo_append (a b : List Instr) (d : DigestState) :
    responsesTo (a ++ b) d = responsesTo a d ++ responsesTo b (stateAfter a d) := by
  induction a generalizing d with
  | nil => rfl
  | cons i a ih => rw [List.cons_append, responsesTo, ih]; rfl

theorem answer_new (seed : Seed) {d : DigestState} (hd : d.fcause = 0) :
    answer (.new seed) d = (streamState seed [], 0) := by
  rw [answer_clear hd, effect, clearStream_eq_streamState (d := d.storeSeed seed) hd]
  rfl

/-- UPDATEN makes the stream of its bytes. -/
theorem stateAfter_updateN (seed : Seed) (bytes : List Byte) :
    stateAfter (updateN bytes) (streamState seed []) = streamState seed bytes := by
  rw [updateN_eq, stateAfter_updates _ rfl (streamState_pending_lt seed []), chunksOf_flatten, absorb_streamState]
  rfl

theorem answer_finalize_streamState (seed : Seed) (S : List Byte) :
    answer .finalize (streamState seed S) = (streamState seed [], wordsData (digestOf seed S)) := by
  rw [answer_clear rfl, effect_finalize (streamState_pending_lt seed S), clearStream_eq_streamState rfl,
    digestWords_streamState]
  rfl

theorem stateAfter_hashOf (seed : Seed) (bytes : List Byte) {d : DigestState} (hd : d.fcause = 0) :
    stateAfter (hashOf seed bytes) d = streamState seed [] := by
  have hnew : stateAfter (hashOf seed bytes) d = stateAfter (updateN bytes ++ [.finalize]) (answer (.new seed) d).1 := rfl
  rw [hnew, answer_new seed hd, stateAfter_append, stateAfter_updateN]
  exact congrArg Prod.fst (answer_finalize_streamState seed bytes)

theorem responsesTo_hashOf (seed : Seed) (bytes : List Byte) {d : DigestState} (hd : d.fcause = 0) :
    responsesTo (hashOf seed bytes) d =
      List.replicate ((bytes.length + 15) / 16 + 1) (packRsp 0 0) ++ [packRsp 0 (wordsData (digestOf seed bytes))] := by
  have hupd : responsesTo (updateN bytes) (streamState seed []) =
      List.replicate ((bytes.length + 15) / 16) (packRsp 0 0) := by
    rw [updateN_eq, responsesTo_updates _ rfl, chunksOf_length]
  have hfin : responsesTo [.finalize] (streamState seed bytes) = [packRsp 0 (wordsData (digestOf seed bytes))] := by
    rw [responsesTo, answer_finalize_streamState]
    rfl
  rw [hashOf, responsesTo, answer_new seed hd, responsesTo_append, hupd, stateAfter_updateN, hfin, List.replicate_succ]
  rfl

theorem hashOf_wellFormed {seed : Seed} {bytes : List Byte} {i : Instr} (h : i ∈ hashOf seed bytes) :
    i.wellFormed = true := by
  rw [hashOf, updateN_eq, List.mem_cons, List.mem_append, List.mem_map, List.mem_singleton] at h
  obtain rfl | ⟨c, hc, rfl⟩ | rfl := h
  · rfl
  · exact decide_eq_true (chunksOf_mem_length hc).2
  · rfl

/-- Settles O44: `run_commands` on the canonical words of the expansion, each well formed. -/
theorem hashAnswersTheDigest : Obligations.HashAnswersTheDigest := by
  intro s seed bytes rest hs hin
  have hdec : ∀ i ∈ hashOf seed bytes, decode (encode i) = i :=
    fun i hi => decodeOfEncodeIsTheInstruction i (hashOf_wellFormed hi)
  rw [run_commands _ hdec hin, stateAfter_hashOf seed bytes hs, responsesTo_hashOf seed bytes hs, List.append_assoc]
  rfl

end Sys2Proof.Machine
end

section
/-! PROOF. The laws of the lifecycle commands (40_lifecycle.md R83). -/

namespace Sys2Proof.Machine

/-! ### Commands in a list (R52, R60) -/

@[simp] theorem stateAfter_nil (d : DigestState) : stateAfter [] d = d := rfl

@[simp] theorem stateAfter_cons (i : Instr) (is : List Instr) (d : DigestState) :
    stateAfter (i :: is) d = stateAfter is (answer i d).1 := rfl

/-- A list of commands run by `execAll`: the state is the fold of the answers, and one response is appended for each. -/
theorem execAll_eq (is : List Instr) (s : State) :
    execAll is s = .next
      { s with
        toDigestState := stateAfter is s.toDigestState
        responses := s.responses ++ responsesTo is s.toDigestState } := by
  induction is generalizing s with
  | nil => simp [responsesTo]
  | cons i is ih =>
    rw [execAll_cons (exec_eq_answer i s), ih]
    simp [responsesTo]

/-- UPDATEs write neither the latch nor the seed, whatever is pending. -/
theorem stateAfter_updates_keeps (X : List (List Byte)) (d : DigestState) :
    (stateAfter (X.map .update) d).fcause = d.fcause ∧ (stateAfter (X.map .update) d).seed = d.seed := by
  induction X generalizing d with
  | nil => exact ⟨rfl, rfl⟩
  | cons b X ih =>
    obtain ⟨hfcause, hseed⟩ := ih (answer (.update b) d).1
    exact ⟨hfcause.trans (answer_fcause_of_legal rfl nofun), hseed.trans (answer_seed (i := .update b) nofun d)⟩

/-! ### RESET, FINALIZE and DIGEST_LENGTH (R81, R82, R131) -/

theorem answer_reset {d : DigestState} (hd : d.fcause = 0) : answer .reset d = (streamState d.seed [], 0) := by
  rw [answer_clear hd, effect, clearStream_eq_streamState hd]

theorem effect_finalize_broken {d : DigestState} (h : 16 ≤ d.pending.length) :
    effect .finalize d = (d.latch .invariantViolation, 0) := by
  have ht : d.tailBroken = true := decide_eq_true h
  simp [effect, ht]

/-- After FINALIZE a RESET has nothing to do: the reset of R100 step 7 is done, or the broken tail is latched. -/
theorem reset_after_finalize {d : DigestState} (hd : d.fcause = 0) :
    (answer .reset (answer .finalize d).1).1 = (answer .finalize d).1 := by
  rw [answer_clear hd]
  obtain hp | hp := Nat.lt_or_ge d.pending.length 16
  · rw [effect_finalize hp, clearStream_eq_streamState hd, answer_reset rfl]
    rfl
  · have hlatched : (d.latch .invariantViolation).fcause ≠ 0 := show causeCode .invariantViolation ≠ 0 by decide
    rw [effect_finalize_broken hp, answer_faulted hlatched]

/-- DIGEST_LENGTH changes no state, in a faulted engine too. -/
theorem answer_digestLength_state (d : DigestState) : (answer .digestLength d).1 = d := by
  by_cases hd : d.fcause = 0
  · rw [answer_clear hd, effect]
  · rw [answer_faulted hd]

/-- In an unfaulted engine it is answered `(OK, 16)`, and what follows is answered as if it had not been there. -/
theorem responsesTo_digestLength_cons {d : DigestState} (hd : d.fcause = 0) (is : List Instr) :
    responsesTo (.digestLength :: is) d = packRsp 0 16 :: responsesTo is d := by
  rw [responsesTo, answer_digestLength_state, answer_clear hd, effect, DigestState.status, hd]
  rfl

/-! ### The six laws (R83) -/

/-- Settles O29: NEW and RESET leave the empty stream of a seed, which RESET, the UPDATEs and FINALIZE do not write;
DIGEST_LENGTH changes no state, so its neighbour answers as it does alone. -/
theorem lifecycleLaws : Obligations.LifecycleLaws := by
  intro σ hσ
  simp only [digestAfter_eq, Option.some.injEq, stateAfter_append, stateAfter_cons, stateAfter_nil,
    answer_digestLength_state, true_and]
  have hnew (s : Seed) : (answer (.new s) σ.toDigestState).1 = streamState s [] := congrArg Prod.fst (answer_new s hσ)
  have hreset : (answer .reset σ.toDigestState).1 = streamState σ.seed [] := congrArg Prod.fst (answer_reset hσ)
  refine ⟨fun s t => ?newNew, fun s => ⟨?newReset, ?resetNew⟩, ?resetReset, fun X => ?updatesReset,
    reset_after_finalize hσ, fun i => ?digestLength⟩
  case newNew => rw [hnew, hnew, answer_new t rfl]
  case newReset => rw [hnew, answer_reset rfl, streamState_seed]
  case resetNew => rw [hreset, hnew, answer_new s rfl]
  case resetReset => rw [hreset, answer_reset rfl, streamState_seed]
  case updatesReset =>
    obtain ⟨hfcause, hseed⟩ := stateAfter_updates_keeps X σ.toDigestState
    rw [hreset, answer_reset (hfcause.trans hσ), hseed]
  case digestLength =>
    refine ⟨_, _, _, _, execAll_eq _ σ, execAll_eq _ σ, ?_, rfl⟩
    rw [responsesTo_digestLength_cons hσ]
    rfl

end Sys2Proof.Machine
end

section
/-! PROOF. The laws of UPDATE for a byte sequence of any length, for one beat, and under cutting into chunks (41_update.md
R91, R92, R94, R95). -/

namespace Sys2Proof.Machine

/-! ### UPDATE in an unfaulted engine (R90) -/

/-- UPDATE answers `(OK, 0)` and leaves what `update(b)` makes of the architectural state. -/
theorem exec_update {s : State} (hs : s.fcause = 0) (b : List Byte) :
    exec (.update b) s = .next { s with
      toDigestState := s.absorb b
      responses := s.responses ++ [packRsp 0 0] } :=
  (unlessFaulted_clear hs _).trans (complete_clear s (d := s.absorb b) hs 0)

/-- Settles O35: with fewer than 16 bytes pending, absorbing no bytes is the identity (`absorb_nil`). -/
theorem emptyUpdateChangesNothing : Obligations.EmptyUpdateChangesNothing := by
  intro s hs hp
  rw [exec_update hs, absorb_nil hp]

/-! ### Blocks in stream order (R91) -/

/-- One pass of R91's loop: block `j` of the buffer is mixed into the accumulators. -/
def mixBlock (buf : List Byte) (h : Word × Word) (j : Nat) : Word × Word :=
  blockMix h (le64 (slice buf (16 * j) (16 * j + 8))) (le64 (slice buf (16 * j + 8) (16 * j + 16)))

/-- The last of `q + 1` passes mixes block `q`: its buffer is what the first `q` passes left. -/
theorem absorbBlocks_succ_fst (q : Nat) (h : Word × Word) (buf : List Byte) :
    (absorbBlocks (q + 1) h buf).1 = mixBlock buf (absorbBlocks q h buf).1 q := by
  rw [absorbBlocks_add, absorbBlocks_rest]
  simp [absorbBlocks, mixBlock, slice, List.drop_drop]

/-- The block loop is a fold over the block numbers, lowest first. -/
theorem absorbBlocks_fst (q : Nat) (h : Word × Word) (buf : List Byte) :
    (absorbBlocks q h buf).1 = (List.range q).foldl (mixBlock buf) h := by
  induction q with
  | zero => rfl
  | succ q ih => rw [absorbBlocks_succ_fst, ih, List.range_succ, List.foldl_concat]

/-- A slice up to the end is what `drop` leaves. -/
theorem slice_to_end (s : List Byte) (a : Nat) : slice s a s.length = s.drop a :=
  List.take_of_length_le (by rw [List.length_drop])

/-- The bytes after the last whole block of the buffer stay pending. -/
theorem absorb_pending_eq_slice (d : DigestState) (b : List Byte) :
    (d.absorb b).pending =
      slice (d.pending ++ b) (16 * ((d.pending ++ b).length / 16)) (d.pending ++ b).length := by
  rw [absorb_pending, absorbBlocks_rest, slice_to_end]

/-- The count of bytes wraps at `2^64` (R22). -/
theorem absorb_totalLength_toNat (d : DigestState) (b : List Byte) :
    (d.absorb b).totalLength.toNat = (d.totalLength.toNat + b.length) % 2 ^ 64 := by
  rw [absorb_totalLength, add64_toNat, BitVec.toNat_ofNat, Nat.add_mod_mod]

/-- Settles O33: the loop is the fold of `absorbBlocks_fst`, and leaves what it has not mixed. -/
theorem updateMixesBlocksInOrder : Obligations.UpdateMixesBlocksInOrder :=
  fun d b => ⟨absorbBlocks_fst _ (d.h1, d.h2) (d.pending ++ b), absorb_pending_eq_slice d b,
    absorb_pending_length d b, absorb_totalLength_toNat d b⟩

/-! ### One beat (R92) -/

/-- A slice that ends within the first `n` bytes is a slice of them. -/
theorem slice_take {n c : Nat} (h : c ≤ n) (s : List Byte) (a : Nat) : slice (s.take n) a c = slice s a c := by
  rw [slice, slice, List.drop_take, List.take_take, Nat.min_eq_left (by omega)]

/-- The block a beat completes: the pending bytes and as many new ones as fill it. -/
theorem take_block_append {p : List Byte} (hp : p.length < 16) (b : List Byte) :
    (p ++ b).take 16 = p ++ slice b 0 (16 - p.length) := by
  rw [List.take_append, List.take_of_length_le hp.le]
  rfl

/-- What a beat leaves after the block it completes are the last of the new bytes. -/
theorem slice_append_after_block {p : List Byte} (hp : p.length < 16) (b : List Byte) :
    slice (p ++ b) 16 (p ++ b).length = slice b (16 - p.length) b.length := by
  rw [slice_to_end, slice_to_end, List.drop_append, List.drop_of_length_le hp.le, List.nil_append]

/-- A beat that completes a block mixes it and keeps the new bytes after it. -/
theorem absorb_completes_block {d : DigestState} {b : List Byte} (hp : d.pending.length < 16) (hb : b.length ≤ 16)
    (h : 16 ≤ d.pending.length + b.length) :
    ((d.absorb b).h1, (d.absorb b).h2) =
        blockMix (d.h1, d.h2) (le64 (slice (d.pending ++ slice b 0 (16 - d.pending.length)) 0 8))
          (le64 (slice (d.pending ++ slice b 0 (16 - d.pending.length)) 8 16)) ∧
      (d.absorb b).pending = slice b (16 - d.pending.length) b.length := by
  rw [← List.length_append] at h
  rw [absorb_one_block h (by rw [List.length_append]; omega), slice_append_after_block hp, ← take_block_append hp,
    slice_take (by decide), slice_take (by decide)]
  exact ⟨rfl, rfl⟩

/-- Settles O34: below 16 bytes in the buffer by `absorb_short`, else by `absorb_completes_block`; the length and
`total_length[3:0]` agree because the invariant is kept. -/
theorem beatCaseByCase : Obligations.BeatCaseByCase := by
  intro b s hs hinv hb
  have hp : s.pending.length < 16 := hinv.1
  have hlen := absorb_pending_length s.toDigestState b
  refine ⟨_, exec_update hs b, fun hshort => ?short, fun hfull => ?full, hlen, (absorb_inv hinv b).2.1⟩
  case short =>
    rw [absorb_short (by rw [List.length_append]; omega)]
    exact ⟨rfl, rfl, rfl, List.length_append⟩
  case full =>
    obtain ⟨hmix, hrest⟩ := absorb_completes_block hp hb hfull
    have hleft : (s.absorb b).pending.length = s.pending.length + b.length - 16 := by omega
    exact ⟨hmix, hrest, hleft, hleft.trans_le (by omega)⟩

/-! ### Chunking (R95) -/

/-- Absorbing chunks one after the other absorbs their concatenation. -/
theorem foldl_absorb (chunks : List (List Byte)) {d : DigestState} (hp : d.pending.length < 16) :
    chunks.foldl DigestState.absorb d = d.absorb chunks.flatten := by
  induction chunks generalizing d with
  | nil => exact (absorb_nil hp).symm
  | cons c cs ih =>
    have hlt : (d.absorb c).pending.length < 16 := by
      rw [absorb_pending_length]
      omega
    rw [List.foldl_cons, ih hlt, absorb_absorb, List.flatten_cons]

/-- Settles O36: two chunks by `absorb_absorb`, any cutting by `foldl_absorb`; equal states have equal digests. -/
theorem chunkingInvariance : Obligations.ChunkingInvariance :=
  ⟨absorb_absorb, fun _ chunks hp => ⟨foldl_absorb chunks hp, congrArg DigestState.digestWords (foldl_absorb chunks hp)⟩⟩

end Sys2Proof.Machine
end

section
/-! PROOF. What FINALIZE leaves (42_finalize.md R104), the digest of the empty stream (R102), and FINALIZE on a broken tail
(60_exceptions.md R131, R133). -/

namespace Sys2Proof.Machine

/-! ### The state after FINALIZE (R100 step 7, R104) -/

/-- FINALIZE on fewer than 16 pending bytes leaves the empty stream under the stored seed. -/
theorem answer_finalize {d : DigestState} (hd : d.fcause = 0) (hp : d.pending.length < 16) :
    answer .finalize d = (streamState d.seed [], wordsData d.digestWords) := by
  rw [answer_clear hd, effect_finalize hp, clearStream_eq_streamState hd]

/-- Of two FINALIZEs the first answers the stream's digest, the second that of the empty stream. -/
theorem responsesTo_finalize_finalize {d : DigestState} (hd : d.fcause = 0) (hp : d.pending.length < 16) :
    responsesTo [.finalize, .finalize] d =
      [packRsp 0 (wordsData d.digestWords), packRsp 0 (wordsData (digestOf d.seed []))] := by
  rw [responsesTo, answer_finalize hd hp, responsesTo, answer_finalize_streamState]
  rfl

/-- Settles O32: FINALIZE and NEW of the stored seed both leave the empty stream under that seed. -/
theorem reuseAfterFinalize : Obligations.ReuseAfterFinalize := by
  intro s hs hp
  refine ⟨?sameState, _, _, execAll_eq _ s, congrArg (s.responses ++ ·) (responsesTo_finalize_finalize hs hp)⟩
  case sameState =>
    rw [digestAfter_eq, digestAfter_eq, stateAfter_cons, stateAfter_cons, answer_finalize hs hp, answer_new s.seed hs]

/-! ### The digest of the empty stream (R102) -/

/-- With no block, no tail and length 0, only R100's steps 3 to 5 on the widened seed are left. -/
theorem digestOf_nil (seed : Seed) :
    digestOf seed [] = crossAdd (avalanche (crossAdd (seed.setWidth 64, seed.setWidth 64))) := by
  simp [digestOf, slice, foldBlocks, crossAdd, avalanche, add64]

/-- Settles O42: for every seed by `digestOf_nil`, computed for seeds 0 and 1; NEW then FINALIZE is `HASH` of no bytes. -/
theorem emptyStreamDigest : Obligations.EmptyStreamDigest := by
  refine ⟨?everySeed, ?seedZero, ?seedOne, fun s x hs => ⟨_, execAll_eq _ s, ?newFinalize⟩⟩
  case everySeed =>
    rintro seed z a b rfl rfl rfl
    exact digestOf_nil seed
  case seedZero =>
    rw [digestBytesOf, digestOf_nil]
    decide
  case seedOne =>
    rw [digestOf_nil]
    decide
  case newFinalize => exact congrArg (s.responses ++ ·) (responsesTo_hashOf x [] hs)

/-! ### FINALIZE on 16 or more pending bytes (R131, R133) -/

/-- Settles O46: the effect is the latch alone (`effect_finalize_broken`), so the response carries its code. -/
theorem brokenTailLatches : Obligations.BrokenTailLatches := by
  intro s hs hp
  rw [exec_eq_answer, answer_clear hs, effect_finalize_broken hp]
  rfl

end Sys2Proof.Machine
end

section
/-! PROOF. The arithmetic primitives and the mix functions (43_mix_functions.md R110 to R123): the word operations as
arithmetic modulo `2^64`, words made of bytes, and the mixers over natural numbers. -/

namespace Sys2Proof.Machine

/-! ### Sums, products and shifts (R110 to R114) -/

theorem add64_comm (a b : Word) : add64 a b = add64 b a := BitVec.add_comm a b

theorem add64_assoc (a b c : Word) : add64 (add64 a b) c = add64 a (add64 b c) := BitVec.add_assoc a b c

/-- Block mix's `h*5` is `h*4 + h` (R112). -/
theorem mul64_five (h : Word) : mul64 h 5 = add64 (shl64 h 2) h := by
  have h5 : (5 : Word).toNat = 5 := rfl
  refine BitVec.eq_of_toNat_eq ?_
  rw [mul64_toNat, add64_toNat, shl64_toNat, h5]
  omega

/-- Settles O12: the value of each primitive, and the closed facts by computation. -/
theorem wordArithmeticWraps : Obligations.WordArithmeticWraps :=
  ⟨fun a b => ⟨add64_toNat a b, add64_comm a b⟩, add64_assoc, mul64_toNat, fun h c => by rw [mul64_five], by decide,
    by decide, by decide, by decide, by decide, by decide, fun a r _ => shr64_toNat a r⟩

/-! ### Rotation (R115) -/

theorem rotl64_eq_rotateLeft (a : Word) {r : Nat} (hr : r < 64) : rotl64 a r = a.rotateLeft r :=
  (BitVec.rotateLeft_eq_rotateLeftAux_of_lt hr).symm

/-- Bits below `64 - r` move up by `r`; the top `r` bits come round to the bottom. -/
theorem getLsbD_rotl64 (a : Word) {r i : Nat} (hr : r < 64) (hi : i < 64) :
    (rotl64 a r).getLsbD ((i + r) % 64) = a.getLsbD i := by
  rw [rotl64_eq_rotateLeft a hr, BitVec.getLsbD_rotateLeft, Nat.mod_eq_of_lt hr]
  by_cases h : i + r < 64
  · have hj : (i + r) % 64 = i + r := Nat.mod_eq_of_lt h
    simp [hj, h]
  · have hj : (i + r) % 64 = i + r - 64 := by omega
    have hwrap : i + r - 64 < r := by omega
    have hback : 64 - r + (i + r - 64) = i := by omega
    simp [hj, hwrap, hback]

/-- Settles O13: the OR is the definition, the bits are `getLsbD_rotl64`. -/
theorem rotateMovesEveryBit : Obligations.RotateMovesEveryBit :=
  fun a _ _ h63 => ⟨rfl, fun _ hi => getLsbD_rotl64 a (Nat.lt_succ_of_le h63) hi⟩

/-- The two shifted parts have no bit in common, so their OR is their sum. -/
theorem rotl64_toNat (a : Word) {r : Nat} (hr : r ≤ 64) : (rotl64 a r).toNat = rotExact a.toNat r := by
  have hpow : 2 ^ 64 = 2 ^ (64 - r) * 2 ^ r := by rw [← pow_add, Nat.sub_add_cancel hr]
  have hlow : a.toNat / 2 ^ (64 - r) < 2 ^ r := Nat.div_lt_of_lt_mul (hpow ▸ a.isLt)
  have hhigh : a.toNat * 2 ^ r % 2 ^ 64 = (a.toNat % 2 ^ (64 - r)) <<< r := by
    rw [hpow, Nat.mul_mod_mul_right, Nat.shiftLeft_eq]
  rw [rotl64, BitVec.toNat_or, shl64_toNat, shr64_toNat, rotExact, hhigh, Nat.shiftLeft_add_eq_or_of_lt hlow]

/-! ### Little-endian words (R116) -/

/-- A word made of bytes is the low half of the payload they fill. -/
theorem le64_eq_packBytes (s : List Byte) : le64 s = (packBytes s).setWidth 64 := by
  induction s with
  | nil => rfl
  | cons b bs ih =>
    rw [le64_cons, packBytes, ih, BitVec.setWidth_or, BitVec.setWidth_shiftLeft_of_le (by decide),
      BitVec.setWidth_setWidth_of_le _ (by decide)]

/-- Up to 8 bytes fill no more than that half, so their sum is the payload's. -/
theorem le64_toNat {s : List Byte} (h : s.length ≤ 8) :
    (le64 s).toNat = ((List.range s.length).map fun i => (s.getD i 0).toNat * 2 ^ (8 * i)).sum := by
  have hlt : (packBytes s).toNat < 2 ^ 64 :=
    (packBytes_lt (by omega)).trans_le (Nat.pow_le_pow_right (by decide) (by omega))
  rw [le64_eq_packBytes, BitVec.toNat_setWidth, Nat.mod_eq_of_lt hlt, packBytes_toNat (by omega)]

@[simp] theorem le64Bytes_length (w : Word) : (le64Bytes w).length = 8 := by simp [le64Bytes]

/-- Byte `i` of the word is byte `i` of the list, an absent one being 0. -/
theorem extractLsb'_le64 (s : List Byte) {i : Nat} (hi : i < 8) : (le64 s).extractLsb' (8 * i) 8 = s.getD i 0 := by
  refine BitVec.eq_of_getLsbD_eq fun j hj => ?_
  have hbyte : (8 * i + j) / 8 = i := by omega
  have hbit : (8 * i + j) % 8 = j := by omega
  rw [BitVec.getLsbD_extractLsb', getLsbD_le64 s (by omega), hbyte, hbit]
  simp [hj]

theorem le64Bytes_le64 {s : List Byte} (h : s.length = 8) : le64Bytes (le64 s) = s := by
  refine List.ext_getElem (by simp [h]) fun i hi hs => ?_
  have hbyte := getElem?_le64Bytes (le64 s) (h ▸ hs)
  rw [extractLsb'_le64 s (h ▸ hs), List.getElem?_eq_getElem hi, List.getD_eq_getElem s 0 hs] at hbyte
  exact Option.some.inj hbyte

theorem le64_le64Bytes (w : Word) : le64 (le64Bytes w) = w := by
  refine BitVec.eq_of_getLsbD_eq fun j hj => ?_
  have hbit : 8 * (j / 8) + j % 8 = j := Nat.div_add_mod j 8
  rw [getLsbD_le64 _ hj, List.getD_eq_getElem?_getD, getElem?_le64Bytes w (by omega)]
  simp [hbit, Nat.mod_lt]

/-- Settles O14: the sum by `le64_toNat`, the two inverses byte by byte and bit by bit. -/
theorem littleEndianWords : Obligations.LittleEndianWords :=
  ⟨fun _ => le64_toNat, rfl, fun w => ⟨le64Bytes_length w, le64_le64Bytes w, fun _ => getElem?_le64Bytes w⟩,
    fun _ => le64Bytes_le64⟩

/-! ### The progressive OR of the tail words (R120) -/

/-- One more byte is one more OR, at its own position. -/
theorem le64_take_succ (s : List Byte) (n : Nat) :
    le64 (s.take (n + 1)) = le64 (s.take n) ||| shl64 ((s.getD n 0).setWidth 64) (8 * n) := by
  induction s generalizing n with
  | nil => simp [le64, shl64]
  | cons b bs ih =>
    cases n with
    | zero => simp [le64_cons, le64, shl64]
    | succ n =>
      have hshift : 8 * (n + 1) = 8 * n + 8 := Nat.mul_succ 8 n
      rw [List.take_succ_cons, List.take_succ_cons, List.getD_cons_succ, le64_cons, le64_cons, ih, hshift, shl64, shl64,
        BitVec.shiftLeft_or_distrib, ← BitVec.shiftLeft_add, BitVec.or_assoc]

/-- The OR of the first `n` bytes, each shifted to its position, is their word. -/
theorem foldl_or_bytes (s : List Byte) (n : Nat) :
    (List.range n).foldl (fun k i => k ||| shl64 ((s.getD i 0).setWidth 64) (8 * i)) 0 = le64 (s.take n) := by
  induction n with
  | zero => rfl
  | succ n ih => rw [List.range_succ, List.foldl_append, ih, le64_take_succ, List.foldl_cons, List.foldl_nil]

/-- Settles O17: `k1` is the OR of the tail's first bytes, `k2` that of the bytes dropped by 8. -/
theorem tailWordsByShiftedOr : Obligations.TailWordsByShiftedOr := by
  intro t _ _
  constructor
  · have hfirst : t.take (min t.length 8) = t.take 8 := List.take_eq_take_iff.mpr (by omega)
    rw [foldl_or_bytes, hfirst, tailWords]
  · have hrest : (t.drop 8).take (t.length - 8) = t.drop 8 := List.take_of_length_le (by simp)
    have hbyte (i : Nat) : t.getD (8 + i) 0 = (t.drop 8).getD i 0 := by
      rw [List.getD_eq_getElem?_getD, List.getD_eq_getElem?_getD, List.getElem?_drop]
    simp only [hbyte]
    rw [foldl_or_bytes, hrest, tailWords]

/-! ### The mixers over natural numbers (R117 to R119, R122) -/

/-- The form of both K-mixes. -/
theorem mul_rotl_mul_toNat (k c d : Word) {r : Nat} (hr : r ≤ 64) :
    (mul64 (rotl64 (mul64 k c) r) d).toNat = rotExact (k.toNat * c.toNat % 2 ^ 64) r * d.toNat % 2 ^ 64 := by
  rw [mul64_toNat, rotl64_toNat _ hr, mul64_toNat]

theorem mixK1_toNat (k : Word) : (mixK1 k).toNat = mixK1Exact k.toNat := mul_rotl_mul_toNat k C1 C2 (r := 31) (by decide)

theorem mixK2_toNat (k : Word) : (mixK2 k).toNat = mixK2Exact k.toNat := mul_rotl_mul_toNat k C2 C1 (r := 33) (by decide)

/-- Settles O15: both K-mixes are `mul_rotl_mul_toNat` at their constants. -/
theorem kMixesExact : Obligations.KMixesExact := ⟨mixK1_toNat, mixK2_toNat⟩

/-- The form of both halves of block mix: `h` is the half's accumulator, `k` its K-mix, `g` the other accumulator. -/
theorem blockMix_half_toNat (h k g c : Word) {r : Nat} (hr : r ≤ 64) :
    (add64 (mul64 (add64 (rotl64 (xor64 h k) r) g) M5) c).toNat =
      ((rotExact (h.toNat ^^^ k.toNat) r + g.toNat) % 2 ^ 64 * 5 + c.toNat) % 2 ^ 64 := by
  have h5 : M5.toNat = 5 := rfl
  rw [add64_toNat, mul64_toNat, add64_toNat, rotl64_toNat _ hr, xor64_toNat, h5, Nat.mod_add_mod]

theorem blockMix_fst_toNat (h : Word × Word) (k1 k2 : Word) :
    (blockMix h k1 k2).1.toNat = blockMixExact1 h.1.toNat h.2.toNat k1.toNat := by
  rw [blockMixExact1, ← mixK1_toNat]
  exact blockMix_half_toNat h.1 (mixK1 k1) h.2 N1 (r := 27) (by decide)

/-- The `h2` half reads the `h1` just computed. -/
theorem blockMix_snd_toNat (h : Word × Word) (k1 k2 : Word) :
    (blockMix h k1 k2).2.toNat = blockMixExact2 (blockMix h k1 k2).1.toNat h.2.toNat k2.toNat := by
  rw [blockMixExact2, ← mixK2_toNat]
  exact blockMix_half_toNat h.2 (mixK2 k2) (blockMix h k1 k2).1 N2 (r := 31) (by decide)

/-- Settles O16: one lemma for each half. -/
theorem blockMixExact : Obligations.BlockMixExact :=
  fun h1 h2 k1 k2 => ⟨blockMix_fst_toNat (h1, h2) k1 k2, blockMix_snd_toNat (h1, h2) k1 k2⟩

theorem xorShift_toNat (k : Word) : (xorShift k).toNat = xorShiftExact k.toNat := by
  rw [xorShift, xor64_toNat, shr64_toNat, FS, xorShiftExact]

/-- Settles O19: three xor-shifts and two products, each by its own value lemma. -/
theorem avalancheExact : Obligations.AvalancheExact := by
  intro k
  have hF1 : F1.toNat = 0xff51afd7ed558ccd := rfl
  have hF2 : F2.toNat = 0xc4ceb9fe1a85ec53 := rfl
  rw [fmix64, xorShift_toNat, mul64_toNat, xorShift_toNat, mul64_toNat, xorShift_toNat, hF1, hF2, fmix64Exact]

/-! ### Zero (R119, R123) -/

theorem fmix64_zero : fmix64 0 = 0 := by decide

/-- No bytes make two zero tail words, which leave both accumulators. -/
theorem tailMix_nil (h : Word × Word) : tailMix h [] = h :=
  Prod.ext (tailMix_fst_of_zero rfl) (tailMix_snd_of_zero rfl)

theorem digestOf_zero_nil : digestOf 0 [] = (0, 0) := by
  rw [digestOf_nil]
  decide

/-- Settles O20: the three fixed points, the empty tail and the empty stream; an all-zero block still adds `N1` and `N2`. -/
theorem mixersFixZero : Obligations.MixersFixZero :=
  ⟨mixK1_zero, mixK2_zero, fmix64_zero, tailMix_nil, digestOf_zero_nil, by decide⟩

end Sys2Proof.Machine
end

section
/-! PROOF. The order of the checks, the causes of the two faults, and what a faulted or an idle engine does
(60_exceptions.md R130 to R135, R145, R160). -/

namespace Sys2Proof.Machine

/-! ### The order of the checks (R134) -/

/-- A faulted engine takes the command word and answers its fault status, whatever the word is. -/
theorem step_faulted {s : State} {w : Cmd} {rest : List Input} (hs : s.fcause ≠ 0) (hin : s.inputs = .cmd w :: rest) :
    step s = .next ((s.acceptCmd rest).respond 0) :=
  (step_cmd hin).trans (exec_faulted _ (s := s.acceptCmd rest) hs)

/-- Settles O47: one lemma for each branch, `step_faulted`, `exec_illegal` and `step_cmd`. -/
theorem checksInOrder : Obligations.ChecksInOrder := by
  intro s w rest hin
  split_ifs with hs hi
  · exact step_faulted hs hin
  · exact (step_cmd hin).trans (exec_illegal hi (s := s.acceptCmd rest) (not_not.mp hs))
  · exact step_cmd hin

/-! ### The causes of the two faults (R130 to R133) -/

/-- What a command leaves in the latch of an unfaulted engine: code 2 for an illegal word, code 1 for FINALIZE on a broken
tail, else 0. -/
theorem answer_fcause_clear {d : DigestState} (hd : d.fcause = 0) (i : Instr) :
    (answer i d).1.fcause = if i.isIllegal then 2 else if i = .finalize ∧ 16 ≤ d.pending.length then 1 else 0 := by
  split_ifs with hi hbroken
  · rw [answer_clear hd, effect_illegal hi]
    rfl
  · obtain ⟨rfl, hp⟩ := hbroken
    rw [answer_clear hd, effect_finalize_broken hp]
    rfl
  · have hlegal : i.isIllegal = false := Bool.eq_false_of_not_eq_true hi
    exact (answer_fcause_of_legal hlegal fun hfin => Nat.lt_of_not_le fun hp => hbroken ⟨hfin, hp⟩).trans hd

/-- Each code has its one cause: FINALIZE is no illegal word. -/
theorem answer_fcause_causes {d : DigestState} (hd : d.fcause = 0) (i : Instr) :
    ((answer i d).1.fcause = 1 ↔ i = .finalize ∧ 16 ≤ d.pending.length) ∧
      ((answer i d).1.fcause = 2 ↔ i.isIllegal = true) ∧
      ((answer i d).1.fcause = 0 ∨ (answer i d).1.fcause = 1 ∨ (answer i d).1.fcause = 2) := by
  rw [answer_fcause_clear hd]
  split_ifs with hi hbroken
  · have hnot : ¬(i = .finalize ∧ 16 ≤ d.pending.length) := by
      rintro ⟨rfl, -⟩
      cases hi
    exact ⟨iff_of_false (by decide) hnot, iff_of_true rfl hi, .inr (.inr rfl)⟩
  · exact ⟨iff_of_true rfl hbroken, iff_of_false (by decide) hi, .inr (.inl rfl)⟩
  · exact ⟨iff_of_false (by decide) hbroken, iff_of_false (by decide) hi, .inl rfl⟩

/-- Settles O48: the causes by `answer_fcause_causes`, that a fault changes nothing else by `answer_of_fault`. -/
theorem faultsHaveTwoCausesAndArePrecise : Obligations.FaultsHaveTwoCausesAndArePrecise := by
  intro i s t h hs
  obtain rfl := eq_of_exec h
  obtain ⟨hinvariant, hillegal, hcodes⟩ := answer_fcause_causes hs i
  refine ⟨hinvariant, hillegal, hcodes, fun hf => ?_⟩
  obtain ⟨c, hc⟩ := answer_of_fault hf
  rw [hc]
  rfl

/-! ### A faulted engine stays faulted (R134, R135, R160) -/

/-- Settles O51: by induction on the words, each step being `step_faulted`. -/
theorem faultedEngineStaysFaulted : Obligations.FaultedEngineStaysFaulted := by
  intro ws
  induction ws with
  | nil =>
    rintro s rest hs rfl
    simp [run_zero]
  | cons w ws ih =>
    intro s rest hs hin
    rw [List.map_cons, List.cons_append] at hin
    have hrun := ih ((s.acceptCmd (ws.map .cmd ++ rest)).respond 0) rest hs rfl
    rw [List.length_cons, run_succ (step_faulted hs hin), hrun]
    simp [DigestState.status, List.replicate_succ, Nat.add_assoc, Nat.add_comm 1]

/-! ### An idle engine holds its state (R145) -/

/-- Settles O55: by induction on the number of steps, each being `step_idle`. -/
theorem idleEngineHoldsItsState : Obligations.IdleEngineHoldsItsState := by
  intro s k hin
  induction k with
  | zero => exact run_zero s
  | succ k ih => rw [run_succ (step_idle hin), ih]

end Sys2Proof.Machine
end
